-- ==== Sys2Proof/Word.lean ====
section
/-! DEFINITION. The word types of the engine (00_scope.md R8; 10_state.md; 30_encoding.md R84, R96). -/

namespace Sys2Proof

/-- A command word or a response word: 32 bits, bit 0 least significant (R8, R84, R96). -/
abbrev Word := BitVec 32

/-- A character byte or a reflector identifier (R81, R82). -/
abbrev Byte := BitVec 8

/-- A cell: a 5-bit unsigned storage element, which can hold 0..31 (R8). -/
abbrev Cell := BitVec 5

/-- A letter code 0..25, which is also the index of every 26-cell table (R8, R51, R80). -/
abbrev Letter := Fin 26

/-- The result a command answers with when it does not fault: bits [30:0] of its response (R96). -/
abbrev Payload := BitVec 31

end Sys2Proof
end

