-- ==== Sys2Proof/Syntax.lean ====
section
/-! DEFINITION. The commands, one constructor for each row of spec/opcode_table.json (30_encoding.md R84, R93). -/

namespace Sys2Proof

/-- The twelve opcodes of the map of R93, by mnemonic. -/
inductive Opcode where
  | pbclr | pbpair | ldrot | ldref | step | enc | rdst | turn | xfwd | xbwd | xref | xplg
  deriving DecidableEq, Repr

/-- A command with its operand fields as they stand in the word (R92: every field is an unsigned integer used as it
stands). A field may hold a value outside its legal range; the command then answers BadOperand or InvalidSymbol. -/
inductive Instr where
  /-- PBCLR: start a plugboard (R141). -/
  | pbclr
  /-- PBPAIR k, v: add one pair (R142). -/
  | pbpair (k v : BitVec 5)
  /-- LDROT slot, sel, pos, ring: mount a rotor (R111). -/
  | ldrot (slot : BitVec 2) (sel : BitVec 3) (pos ring : BitVec 5)
  /-- LDREF id: mount a reflector (R131). -/
  | ldref (ch : BitVec 8)
  /-- STEP: one transition of the turnover machine (R155). -/
  | step
  /-- ENC ch: encipher one character (R154). -/
  | enc (ch : BitVec 8)
  /-- RDST: read the rotor window and the status flags (R156). -/
  | rdst
  /-- TURN slot: advance one rotor (R115). -/
  | turn (slot : BitVec 2)
  /-- XFWD slot, x: one rotor's forward substitution (R116). -/
  | xfwd (slot : BitVec 2) (x : BitVec 5)
  /-- XBWD slot, x: one rotor's backward substitution (R117). -/
  | xbwd (slot : BitVec 2) (x : BitVec 5)
  /-- XREF x: the reflector's substitution (R132). -/
  | xref (x : BitVec 5)
  /-- XPLG x: the plugboard's substitution (R143). -/
  | xplg (x : BitVec 5)
  deriving DecidableEq, Repr

/-- The row of the opcode map a command belongs to (R93). -/
def Instr.opcode : Instr → Opcode
  | .pbclr => .pbclr
  | .pbpair _ _ => .pbpair
  | .ldrot _ _ _ _ => .ldrot
  | .ldref _ => .ldref
  | .step => .step
  | .enc _ => .enc
  | .rdst => .rdst
  | .turn _ => .turn
  | .xfwd _ _ => .xfwd
  | .xbwd _ _ => .xbwd
  | .xref _ => .xref
  | .xplg _ => .xplg

end Sys2Proof
end

