-- ==== Sys2Proof/WellFormed.lean ====
section
/-! DEFINITION. Well-formed commands: every operand field in the legal range of the table of 30_encoding.md R92.

A word may decode to a command that is not well-formed (the fields are wider than their legal ranges); such a command
is executed too, and answers BadOperand or InvalidSymbol (60_exceptions.md R173, R175). -/

namespace Sys2Proof.WellFormed

/-- A slot field names one of the three slots; 3 is not a slot (R83, R92). -/
def slot (s : BitVec 2) : Bool := s != 3#2

/-- A letter-code, position or ring field is in 0..25 (R92). -/
def code (x : BitVec 5) : Bool := x.toNat ≤ 25

/-- The character of ENC is an uppercase letter, 0x41..0x5A (R81, R92). -/
def symbol (ch : BitVec 8) : Bool := 0x41 ≤ ch.toNat && ch.toNat ≤ 0x5A

end Sys2Proof.WellFormed

namespace Sys2Proof

/-- Every operand field of the command is in its legal range (R92). sel and the identifier of LDREF have no illegal
value. -/
def Instr.wellFormed : Instr → Bool
  | .pbclr => true
  | .pbpair k v => WellFormed.code k && WellFormed.code v
  | .ldrot slot _ pos ring => WellFormed.slot slot && WellFormed.code pos && WellFormed.code ring
  | .ldref _ => true
  | .step => true
  | .enc ch => WellFormed.symbol ch
  | .rdst => true
  | .turn slot => WellFormed.slot slot
  | .xfwd slot x => WellFormed.slot slot && WellFormed.code x
  | .xbwd slot x => WellFormed.slot slot && WellFormed.code x
  | .xref x => WellFormed.code x
  | .xplg x => WellFormed.code x

end Sys2Proof
end

