-- ==== Sys2Proof/Decode.lean ====
section
/-! DEFINITION. Decoding, total on every 32-bit word and refusing by name, and the encoder (30_encoding.md R84, R93 to
R95, R97, R98). The field ranges are not checked here: a command whose field is out of range is decoded, and its
meaning answers the fault (R97 checks them after the reserved bits). -/

namespace Sys2Proof

/-- Why a word selects no command (R172). Both reasons raise IllegalCommand. -/
inductive Reject where
  /-- Opcode 0x0, 0xD, 0xE or 0xF (R94). -/
  | reservedOpcode
  /-- A bit that the command's format does not name is 1 (R95). -/
  | reservedBit
  deriving DecidableEq, Repr

/-- Column op[31:28] of the opcode map (R93); the four other values are reserved (R94). -/
def opcodeOf (op : BitVec 4) : Option Opcode :=
  match op.toNat with
  | 0x1 => some .pbclr
  | 0x2 => some .pbpair
  | 0x3 => some .ldrot
  | 0x4 => some .ldref
  | 0x5 => some .step
  | 0x6 => some .enc
  | 0x7 => some .rdst
  | 0x8 => some .turn
  | 0x9 => some .xfwd
  | 0xA => some .xbwd
  | 0xB => some .xref
  | 0xC => some .xplg
  | _ => none

/-- Column match of the opcode map (R93). -/
def Opcode.pattern : Opcode → Word
  | .pbclr => 0x10000000
  | .pbpair => 0x20000000
  | .ldrot => 0x30000000
  | .ldref => 0x40000000
  | .step => 0x50000000
  | .enc => 0x60000000
  | .rdst => 0x70000000
  | .turn => 0x80000000
  | .xfwd => 0x90000000
  | .xbwd => 0xA0000000
  | .xref => 0xB0000000
  | .xplg => 0xC0000000

/-- Column mask of the opcode map (R93): the opcode and every reserved bit. -/
def Opcode.mask : Opcode → Word
  | .pbclr => 0xFFFFFFFF
  | .pbpair => 0xFFFFE0E0
  | .ldrot => 0xFCF8E0E0
  | .ldref => 0xFFFFFF00
  | .step => 0xFFFFFFFF
  | .enc => 0xFFFFFF00
  | .rdst => 0xFFFFFFFF
  | .turn => 0xFCFFFFFF
  | .xfwd => 0xFCFFFFE0
  | .xbwd => 0xFCFFFFE0
  | .xref => 0xFFFFFFE0
  | .xplg => 0xFFFFFFE0

/-- The unsigned field of `n` bits whose lowest bit is bit `lo` of the word (R8, R92). -/
def field (w : Word) (lo n : Nat) : BitVec n := w.extractLsb' lo n

/-- The command of an opcode with the fields of its format taken from the word (R84). -/
def Opcode.operands (w : Word) : Opcode → Instr
  | .pbclr => .pbclr
  | .pbpair => .pbpair (field w 8 5) (field w 0 5)
  | .ldrot => .ldrot (field w 24 2) (field w 16 3) (field w 8 5) (field w 0 5)
  | .ldref => .ldref (field w 0 8)
  | .step => .step
  | .enc => .enc (field w 0 8)
  | .rdst => .rdst
  | .turn => .turn (field w 24 2)
  | .xfwd => .xfwd (field w 24 2) (field w 0 5)
  | .xbwd => .xbwd (field w 24 2) (field w 0 5)
  | .xref => .xref (field w 0 5)
  | .xplg => .xplg (field w 0 5)

/-- The decode procedure of R97 up to its field extraction: the opcode, then the reserved bits, then the fields. -/
def decode (w : Word) : Except Reject Instr :=
  match opcodeOf (field w 28 4) with
  | none => .error .reservedOpcode
  | some op => if w &&& op.mask = op.pattern then .ok (op.operands w) else .error .reservedBit

/-- A field placed with its lowest bit at bit `lo` of a command word, every other bit 0 (R84). -/
def placed (lo : Nat) {n : Nat} (x : BitVec n) : Word := x.setWidth 32 <<< lo

/-- The word of a command, as the assembler makes it from the opcode and the fields (R84, R98). -/
def encode : Instr → Word
  | .pbclr => 0x10000000
  | .pbpair k v => 0x20000000 ||| placed 8 k ||| placed 0 v
  | .ldrot slot sel pos ring => 0x30000000 ||| placed 24 slot ||| placed 16 sel ||| placed 8 pos ||| placed 0 ring
  | .ldref ch => 0x40000000 ||| placed 0 ch
  | .step => 0x50000000
  | .enc ch => 0x60000000 ||| placed 0 ch
  | .rdst => 0x70000000
  | .turn slot => 0x80000000 ||| placed 24 slot
  | .xfwd slot x => 0x90000000 ||| placed 24 slot ||| placed 0 x
  | .xbwd slot x => 0xA0000000 ||| placed 24 slot ||| placed 0 x
  | .xref x => 0xB0000000 ||| placed 0 x
  | .xplg x => 0xC0000000 ||| placed 0 x

/-- The command word whose low `nbits` bits are those of `w` and whose other bits are 0. A command word is one 32-bit
value with bit 0 least significant, so the table's numbering is the word's own (R62; assumption log 9). -/
def tableWord (nbits w : Nat) : Word := BitVec.ofNat 32 (w % 2 ^ nbits)

/-- What the decoder reads from a word given in the numbering of spec/opcode_table.json. -/
def decodeTableWord (nbits w : Nat) : Option Instr := (decode (tableWord nbits w)).toOption

end Sys2Proof
end

