-- ==== Sys2Proof/Config.lean ====
section
/-! DEFINITION. The parameters of the engine (00_scope.md R6, R7).

There is no free value here: R202 says that no result is left unspecified, and the only unspecified values of the
machine are the reset values of R191, which Machine/State.lean names (assumption log 4). The two OPEN parameters of
R7, PORT_PROTOCOL and CMD_SERIALISATION, are read by no rule and so have no definition (assumption log 8 and 9). -/

namespace Sys2Proof.Config

/-- NSYM, the size of the alphabet (R6). -/
def nsym : Nat := 26

/-- NROTOR, the rotors in the machine (R6). -/
def nrotor : Nat := 3

/-- NCAT, the entries of the rotor catalog (R6). -/
def ncat : Nat := 8

/-- NNOTCH, the notch registers of a rotor (R6). -/
def nnotch : Nat := 2

/-- SYMW, the width of a cell (R7, D2). -/
def symw : Nat := 5

/-- CMDW, the width of a command word (R7, D2). -/
def cmdw : Nat := 32

/-- RSPW, the width of a response word (R7, D7). -/
def rspw : Nat := 32

/-- SENTINEL, the value of an unused notch register (R7, D15). -/
def sentinel : Nat := 27

end Sys2Proof.Config
end

