-- ==== Sys2Proof/Machine/State.lean ====
section
/-! DEFINITION. The state of the engine (10_state.md R20 to R34), its ports, its reset value (70_reset_and_hazards.md
R191) and the outcomes of a step. -/

namespace Sys2Proof.Machine

/-- The three rotor slots: 0 left, 1 middle, 2 right (R20, R83). -/
inductive Slot where
  | left | middle | right
  deriving DecidableEq, Repr

/-- The registers of one slot (R21, R22, R24, R25) and its valid flag (R27). -/
structure Rotor where
  /-- SEL[s], the catalog index of the wiring (R21). -/
  sel : BitVec 3
  /-- POS[s], the current position (R22). -/
  pos : Cell
  /-- RING[s], the ring setting (R24). -/
  ring : Cell
  /-- NOTCH_A[s] (R25). -/
  notchA : Cell
  /-- NOTCH_B[s] (R25). -/
  notchB : Cell
  /-- VROT[s]: LDROT has loaded the slot since reset (R27). -/
  valid : Bool
  deriving DecidableEq, Repr

/-- PLUG, the only writable LUT space: 26 cells, one for each letter code (R29, R50, R60). The engine has no memory of
bytes (R50, R64), so this is all its memory (assumption log 12). -/
abbrev Memory := Vector Cell 26

/-- The architectural state: everything R33 lists, and nothing else. -/
structure Engine where
  /-- The bank of slot 0 (R20). -/
  left : Rotor
  /-- The bank of slot 1 (R20). -/
  middle : Rotor
  /-- The bank of slot 2 (R20). -/
  right : Rotor
  /-- REFSEL: 0 identity, 1 B, 2 C (R26). -/
  refsel : BitVec 2
  /-- VREF: LDREF has executed since reset (R27). -/
  vref : Bool
  /-- PLUG[0..25] (R29, R60). -/
  plug : Memory
  /-- VPLG: PBCLR has executed since reset (R27). -/
  vplg : Bool
  deriving DecidableEq, Repr

/-- What the host can present between two commands: a command word at the command port, or a pulse of rst (R190,
R195, R199). -/
inductive Input where
  | command (w : Word)
  | reset
  deriving DecidableEq, Repr

/-- The engine and its ports. That the ports are lists of the state is DESIGN CHOICE, safe (assumption log 2). -/
structure State where
  /-- The architectural state (R33). -/
  engine : Engine
  /-- What the host has presented and the engine has not yet taken, oldest first (R30, R180). -/
  inputs : List Input
  /-- The response words the engine has produced, oldest first (R96). -/
  responses : List Word
  deriving DecidableEq, Repr

/-- The four faults of the engine (R171). A fault does not stop the engine: its entry is a next state
(State.takeFault of Machine/Ops.lean; assumption log 1). -/
inductive FaultKind where
  /-- The word selects no command or has a reserved bit set (R172): raised by Machine.step on a word the decoder
  rejects. -/
  | illegalCommand
  /-- An operand field is outside its legal range (R173): raised by PBPAIR, LDROT, TURN, XFWD, XBWD, XREF, XPLG. -/
  | badOperand
  /-- The command needs state whose valid flag is 0 (R174): raised by PBPAIR, STEP, ENC, TURN, XFWD, XBWD, XREF,
  XPLG. -/
  | notConfigured
  /-- ENC was given a byte outside 'A'..'Z' (R175). -/
  | invalidSymbol
  deriving DecidableEq, Repr

/-- Reasons for the machine to stop with a fault: none. Nobody raises one: the engine's own faults answer a response
word and the engine goes on (R171, R180), and R202 makes it total on every other input. Safe: nothing stops that the
spec lets run. -/
inductive Fault where
  deriving DecidableEq, Repr

/-- Reasons to refuse an instruction. -/
inductive Refusal where
  /-- The instruction has no meaning yet: raised by an arm of exec only, and by none of them now. Safe. -/
  | notModelled (mnemonic : String)
  deriving DecidableEq, Repr

/-- The outcome of a step of this machine. -/
abbrev Outcome := Host.Outcome State Fault Refusal

/-- What executing a command on an engine gives: the fault it raises, or the engine it leaves and its result (R96,
R171). -/
abbrev Result := Except FaultKind (Engine × Payload)

/-- A slot after reset: not loaded (R191). The register values are DESIGN CHOICE, unsafe (assumption log 4): R191
leaves them unspecified. -/
def Rotor.reset : Rotor := { sel := 0, pos := 0, ring := 0, notchA := 0, notchB := 0, valid := false }

/-- The PLUG cells after reset. DESIGN CHOICE, unsafe (assumption log 4): R191 leaves them unspecified. -/
def Memory.reset : Memory :=
  #v[0, 0, 0, 0, 0, 0, 0, 0, 0, 0, 0, 0, 0, 0, 0, 0, 0, 0, 0, 0, 0, 0, 0, 0, 0, 0]

/-- The engine after reset: the five valid flags are 0 (R191). The value of REFSEL is DESIGN CHOICE, unsafe
(assumption log 4). -/
def Engine.reset : Engine :=
  { left := Rotor.reset, middle := Rotor.reset, right := Rotor.reset, refsel := 0, vref := false,
    plug := Memory.reset, vplg := false }

/-- The machine right after power-on reset (R191, R193): nothing presented and nothing answered yet. -/
def State.reset : State := { engine := Engine.reset, inputs := [], responses := [] }

end Sys2Proof.Machine
end

