-- ==== Sys2Proof/Machine/Rom.lean ====
section
/-! DEFINITION. The contents of the four ROM banks (20_memory.md R52, R53, R54, R57) and the read of one cell of each.
Constants of the hardware, not state (10_state.md R31). The spec supplies the values from general knowledge
(93_implementation_defined.md G1 to G3): PRESUMED, unsafe (assumption log 6). -/

namespace Sys2Proof.Machine

/-- WFWD: row r is the forward wiring of catalog rotor r (R52). -/
def wfwdBank : Vector (Vector Cell 26) 8 :=
  #v[#v[4, 10, 12, 5, 11, 6, 3, 16, 21, 25, 13, 19, 14, 22, 24, 7, 23, 20, 18, 15, 0, 8, 1, 17, 2, 9],
     #v[0, 9, 3, 10, 18, 8, 17, 20, 23, 1, 11, 7, 22, 19, 12, 2, 16, 6, 25, 13, 15, 24, 5, 21, 14, 4],
     #v[1, 3, 5, 7, 9, 11, 2, 15, 17, 19, 23, 21, 25, 13, 24, 4, 8, 22, 6, 0, 10, 12, 20, 18, 16, 14],
     #v[4, 18, 14, 21, 15, 25, 9, 0, 24, 16, 20, 8, 17, 7, 23, 11, 13, 5, 19, 6, 10, 3, 2, 12, 22, 1],
     #v[21, 25, 1, 17, 6, 8, 19, 24, 20, 15, 18, 3, 13, 7, 11, 23, 0, 22, 12, 9, 16, 14, 5, 4, 2, 10],
     #v[9, 15, 6, 21, 14, 20, 12, 5, 24, 16, 1, 4, 13, 7, 25, 17, 3, 10, 0, 18, 23, 11, 8, 2, 19, 22],
     #v[13, 25, 9, 7, 6, 17, 2, 23, 12, 24, 18, 22, 1, 14, 20, 5, 0, 8, 10, 21, 3, 4, 11, 19, 15, 16],
     #v[5, 10, 16, 7, 19, 11, 23, 14, 2, 1, 9, 18, 15, 3, 25, 17, 0, 12, 4, 22, 13, 8, 20, 24, 6, 21]]

/-- WBWD: row r is the inverse wiring of catalog rotor r (R53). -/
def wbwdBank : Vector (Vector Cell 26) 8 :=
  #v[#v[20, 22, 24, 6, 0, 3, 5, 15, 21, 25, 1, 4, 2, 10, 12, 19, 7, 23, 18, 11, 17, 8, 13, 16, 14, 9],
     #v[0, 9, 15, 2, 25, 22, 17, 11, 5, 1, 3, 10, 14, 19, 24, 20, 16, 6, 4, 13, 7, 23, 12, 8, 21, 18],
     #v[19, 0, 6, 1, 15, 2, 18, 3, 16, 4, 20, 5, 21, 13, 25, 7, 24, 8, 23, 9, 22, 11, 17, 10, 14, 12],
     #v[7, 25, 22, 21, 0, 17, 19, 13, 11, 6, 20, 15, 23, 16, 2, 4, 9, 12, 1, 18, 10, 3, 24, 14, 8, 5],
     #v[16, 2, 24, 11, 23, 22, 4, 13, 5, 19, 25, 14, 18, 12, 21, 9, 20, 3, 10, 6, 8, 0, 17, 15, 7, 1],
     #v[18, 10, 23, 16, 11, 7, 2, 13, 22, 0, 17, 21, 6, 12, 4, 1, 9, 15, 19, 24, 5, 3, 25, 20, 8, 14],
     #v[16, 12, 6, 20, 21, 15, 4, 3, 17, 2, 18, 22, 8, 0, 13, 24, 25, 5, 10, 23, 14, 19, 11, 7, 9, 1],
     #v[16, 9, 8, 13, 18, 0, 24, 3, 21, 10, 1, 5, 17, 20, 7, 12, 2, 15, 11, 4, 22, 25, 19, 6, 23, 14]]

/-- NOTCH: cells A and B of each catalog rotor; 27 is the sentinel of a rotor with one notch (R54). -/
def notchBank : Vector (Vector Cell 2) 8 :=
  #v[#v[16, 27], #v[4, 27], #v[21, 27], #v[9, 27], #v[25, 27], #v[25, 12], #v[25, 12], #v[25, 12]]

/-- REFL: row 0 is reflector B, row 1 is reflector C (R57). -/
def reflBank : Vector (Vector Cell 26) 2 :=
  #v[#v[24, 17, 20, 7, 16, 18, 11, 3, 15, 23, 13, 6, 14, 10, 12, 8, 4, 1, 5, 25, 2, 22, 21, 9, 0, 19],
     #v[5, 21, 15, 9, 8, 0, 14, 24, 4, 3, 17, 25, 23, 22, 6, 2, 19, 10, 20, 16, 18, 1, 13, 12, 7, 11]]

/-- MemRead(WFWD, (row, i)) (R50). -/
def readWfwd (row : BitVec 3) (i : Letter) : Cell := (wfwdBank[row.toFin])[i]

/-- MemRead(WBWD, (row, i)) (R50). -/
def readWbwd (row : BitVec 3) (i : Letter) : Cell := (wbwdBank[row.toFin])[i]

/-- MemRead(NOTCH, (row, i)): i is 0 for cell A and 1 for cell B (R50). -/
def readNotch (row : BitVec 3) (i : Fin 2) : Cell := (notchBank[row.toFin])[i]

/-- MemRead(REFL, (row, i)): row 0 is B and row 1 is C (R50). -/
def readRefl (row : Fin 2) (i : Letter) : Cell := (reflBank[row])[i]

end Sys2Proof.Machine
end

