-- ==== Sys2Proof/Machine/Ops.lean ====
section
/-! DEFINITION. The named operations over the registers, PLUG and the ports: modular arithmetic (00_scope.md R9),
register banks, PLUG access (20_memory.md R61), the response port (30_encoding.md R96), taking a fault
(60_exceptions.md R171), and the host's inputs (70_reset_and_hazards.md R190, R199). -/

namespace Sys2Proof.Machine

/-- mod26(v): the remainder of v divided by 26 (R9). -/
def mod26 (v : Nat) : Letter := ⟨v % 26, Nat.mod_lt v (by decide)⟩

/-- The cell that holds a letter code (R80). -/
def cellOf (x : Letter) : Cell := BitVec.ofNat 5 x.val

/-- The bank of registers of a slot (R20). -/
def Engine.rotor (e : Engine) : Slot → Rotor
  | .left => e.left
  | .middle => e.middle
  | .right => e.right

/-- Write the bank of one slot; the other two are untouched (R20: the banks do not alias). -/
def Engine.setRotor (e : Engine) (k : Slot) (r : Rotor) : Engine :=
  match k with
  | .left => { e with left := r }
  | .middle => { e with middle := r }
  | .right => { e with right := r }

/-- MemRead(PLUG, i) (R50, R61). -/
def Memory.read (m : Memory) (i : Letter) : Cell := m[i]

/-- MemWrite(PLUG, i, v) (R61). -/
def Memory.write (m : Memory) (i : Letter) (v : Cell) : Memory := m.set i v

/-- PLUG after the 26 writes `PLUG[i] <- i` of PBCLR (R60, R141). -/
def Memory.identity : Memory :=
  #v[0, 1, 2, 3, 4, 5, 6, 7, 8, 9, 10, 11, 12, 13, 14, 15, 16, 17, 18, 19, 20, 21, 22, 23, 24, 25]

/-- Every cell of PLUG holds a letter code (R29, R60). -/
def Memory.wf (m : Memory) : Bool := m.toList.all fun c => decide (c.toNat ≤ 25)

/-- The code of a fault, bits [3:0] of its response (R171). -/
def FaultKind.code : FaultKind → BitVec 4
  | .illegalCommand => 1
  | .badOperand => 2
  | .notConfigured => 3
  | .invalidSymbol => 4

/-- A normal response word: bit 31 is 0 and bits [30:0] are the result (R96). -/
def normalWord (v : Payload) : Word := v.setWidth 32

/-- The response word of a fault: bit 31 is 1, bits [30:4] are 0 and bits [3:0] are the code (R96, R171). -/
def FaultKind.word (f : FaultKind) : Word := 0x80000000 ||| f.code.setWidth 32

/-- Put one response word on the response port, after those already there (R96: in command order). -/
def State.respond (s : State) (w : Word) : State := { s with responses := s.responses ++ [w] }

/-- Fault entry (R171, R179): the response word carries the code, and nothing else happens: no register, cell or flag
changes, nothing is saved and control goes nowhere. There is no return from a fault to model (R180). -/
def State.takeFault (s : State) (f : FaultKind) : State := s.respond f.word

/-- The end of a command: its engine and its response together, or its fault (R65: effects complete before the
response; R171: a fault changes nothing). -/
def State.answer (s : State) (r : Result) : Outcome :=
  match r with
  | .ok (e, v) => .next ({ s with engine := e }.respond (normalWord v))
  | .error f => .next (s.takeFault f)

/-- A word that selects no command raises IllegalCommand, whichever way it was rejected (R172). -/
def State.rejectWord (s : State) (_why : Reject) : Outcome := .next (s.takeFault .illegalCommand)

/-- A pulse of rst: the engine is in the reset state of R191 and answers nothing (R190, R199). The ports keep what the
host presented and was answered: DESIGN CHOICE, unsafe (assumption log 5). -/
def State.pulseReset (s : State) : State := { s with engine := Engine.reset }

/-- Nothing is presented: nothing moves (R196). -/
def State.idle (s : State) : Outcome := .next s

/-- The host presents a command word as the very next input. -/
def State.present (s : State) (w : Word) : State := { s with inputs := .command w :: s.inputs }

end Sys2Proof.Machine
end

