-- ==== Sys2Proof/Machine/Operands.lean ====
section
/-! DEFINITION. Operand forms: slot numbers, letter codes, character bytes and reflector identifiers (30_encoding.md R80
to R83, R92), each with the check that 60_exceptions.md R173 or R175 makes. -/

namespace Sys2Proof.Machine

/-- A slot field: 0 left, 1 middle, 2 right; 3 is not a slot (R83). -/
def slotOperand (b : BitVec 2) : Option Slot :=
  match b.toNat with
  | 0 => some .left
  | 1 => some .middle
  | 2 => some .right
  | _ => none

/-- A letter-code, position or ring field: 0..25; 26..31 are refused, not reduced (R92, R173). -/
def letterOperand (x : BitVec 5) : Option Letter :=
  if h : x.toNat < 26 then some ⟨x.toNat, h⟩ else none

/-- The letter code `ch - 0x41` of a character byte 0x41..0x5A; any other byte is out of the alphabet (R81, R175). -/
def symbolOperand (ch : Byte) : Option Letter :=
  if h : 0x41 ≤ ch.toNat ∧ ch.toNat ≤ 0x5A then some ⟨ch.toNat - 0x41, by omega⟩ else none

/-- REFSEL for a reflector identifier: 0x42 is B, 0x43 is C and every other byte is the identity (R82, R131). -/
def refselOf (id : Byte) : BitVec 2 :=
  if id = 0x42 then 1 else if id = 0x43 then 2 else 0

/-- The result of a command that answers a cell: bits [4:0], the rest 0 (R96). -/
def cellResult (c : Cell) : Payload := c.setWidth 31

/-- The result of ENC: the character byte 0x41 + y (R81, R96, R154). -/
def symbolResult (y : Cell) : Payload := BitVec.ofNat 31 (0x41 + y.toNat)

end Sys2Proof.Machine
end

