-- ==== Sys2Proof/Machine/Plugboard.lean ====
section
/-! DEFINITION. The plugboard family: Plug; PBCLR, PBPAIR, XPLG (42_plugboard.md). -/

namespace Sys2Proof.Machine

/-- Plug(x): one PLUG cell (R140). -/
def Engine.plugged (e : Engine) (x : Letter) : Cell := e.plug.read x

/-- The two writes of PBPAIR, in their order; a letter used before is not looked for (R142, R144). -/
def Memory.pair (m : Memory) (k v : Letter) : Memory := (m.write k (cellOf v)).write v (cellOf k)

/-- PBCLR: never faults (R141). -/
def pbclrResult (e : Engine) : Result := .ok ({ e with plug := Memory.identity, vplg := true }, 0)

/-- PBPAIR k, v (R142). -/
def pbpairResult (k v : BitVec 5) (e : Engine) : Result :=
  match letterOperand k, letterOperand v with
  | some a, some b => if e.vplg then .ok ({ e with plug := e.plug.pair a b }, 0) else .error .notConfigured
  | _, _ => .error .badOperand

/-- XPLG x (R143). -/
def xplgResult (x : BitVec 5) (e : Engine) : Result :=
  match letterOperand x with
  | none => .error .badOperand
  | some c => if e.vplg then .ok (e, cellResult (e.plugged c)) else .error .notConfigured

/-- The meaning of PBCLR (R141). -/
def execPbclr (s : State) : Outcome := s.answer (pbclrResult s.engine)

/-- The meaning of PBPAIR (R142). -/
def execPbpair (k v : BitVec 5) (s : State) : Outcome := s.answer (pbpairResult k v s.engine)

/-- The meaning of XPLG (R143). -/
def execXplg (x : BitVec 5) (s : State) : Outcome := s.answer (xplgResult x s.engine)

end Sys2Proof.Machine
end

