-- ==== Sys2Proof/Machine/Reflector.lean ====
section
/-! DEFINITION. The reflector family: Refl; LDREF, XREF (41_reflector.md). -/

namespace Sys2Proof.Machine

/-- Refl(x): reflector B, reflector C, or the identity (R130). REFSEL 3, which no run reaches, is the
identity too: DESIGN CHOICE, unsafe there only (assumption log 7). -/
def Engine.refl (e : Engine) (x : Letter) : Cell :=
  if e.refsel = 1 then readRefl 0 x
  else if e.refsel = 2 then readRefl 1 x
  else cellOf x

/-- LDREF id: never faults; an identifier that is neither B nor C mounts the identity (R131). -/
def ldrefResult (id : Byte) (e : Engine) : Result := .ok ({ e with refsel := refselOf id, vref := true }, 0)

/-- XREF x (R132). -/
def xrefResult (x : BitVec 5) (e : Engine) : Result :=
  match letterOperand x with
  | none => .error .badOperand
  | some c => if e.vref then .ok (e, cellResult (e.refl c)) else .error .notConfigured

/-- The meaning of LDREF (R131). -/
def execLdref (id : Byte) (s : State) : Outcome := s.answer (ldrefResult id s.engine)

/-- The meaning of XREF (R132). -/
def execXref (x : BitVec 5) (s : State) : Outcome := s.answer (xrefResult x s.engine)

end Sys2Proof.Machine
end

