-- ==== Sys2Proof/Machine/Flags.lean ====
section
/-! DEFINITION. Flags and predicates: the notch detector (40_rotor.md R113), the sets of valid flags the commands need
(60_exceptions.md R174) and the status word (43_enigma.md R156). -/

namespace Sys2Proof.Machine

/-- AtNotch: the position equals either notch register; the ring setting takes no part (R113). -/
def Rotor.atNotch (r : Rotor) : Bool := r.pos == r.notchA || r.pos == r.notchB

/-- AtNotch(s), which is also ATN[s] (R28, R113). -/
def Engine.atNotch (e : Engine) (k : Slot) : Bool := (e.rotor k).atNotch

/-- The three rotor flags: what STEP needs (R174). -/
def Engine.rotorsValid (e : Engine) : Bool := e.left.valid && e.middle.valid && e.right.valid

/-- All five valid flags: what ENC needs (R174). -/
def Engine.configured (e : Engine) : Bool := e.rotorsValid && e.vref && e.vplg

/-- POS[s] in the status word: 0 while the slot is not loaded (R156). -/
def Rotor.shownPos (r : Rotor) : Cell := if r.valid then r.pos else 0

/-- ATN[s] in the status word: 0 while the slot is not loaded (R156). -/
def Rotor.shownAtn (r : Rotor) : Bool := r.valid && r.atNotch

/-- REFSEL in the status word: 0 while no reflector is mounted (R156). -/
def Engine.shownRefsel (e : Engine) : BitVec 2 := if e.vref then e.refsel else 0

/-- A field of the status word with its lowest bit at bit `lo`. -/
def shownAt (lo : Nat) {n : Nat} (x : BitVec n) : Payload := x.setWidth 31 <<< lo

/-- Bits [30:0] of the status word (R156). -/
def Engine.status (e : Engine) : Payload :=
  shownAt 0 e.right.shownPos ||| shownAt 5 e.middle.shownPos ||| shownAt 10 e.left.shownPos
    ||| shownAt 15 (BitVec.ofBool e.right.shownAtn)
    ||| shownAt 16 (BitVec.ofBool e.middle.shownAtn)
    ||| shownAt 17 (BitVec.ofBool e.left.shownAtn)
    ||| shownAt 18 (BitVec.ofBool e.right.valid)
    ||| shownAt 19 (BitVec.ofBool e.middle.valid)
    ||| shownAt 20 (BitVec.ofBool e.left.valid)
    ||| shownAt 21 (BitVec.ofBool e.vref)
    ||| shownAt 22 (BitVec.ofBool e.vplg)
    ||| shownAt 23 e.shownRefsel

end Sys2Proof.Machine
end

