-- ==== Sys2Proof/Machine/Rotor.lean ====
section
/-! DEFINITION. The rotor family: RotFwd, RotBwd, Turnover; LDROT, TURN, XFWD, XBWD (40_rotor.md). -/

namespace Sys2Proof.Machine

/-- The ROM index of a letter code: `mod26(x + 26 + POS - RING)` (R112). With POS or RING above
25, which no run reaches, the subtraction stops at 0: DESIGN CHOICE, unsafe there only (assumption log 7). -/
def Rotor.offsetIn (r : Rotor) (x : Nat) : Letter := mod26 (x + 26 + r.pos.toNat - r.ring.toNat)

/-- The letter code of a cell read: `mod26(t + 26 - POS + RING)` (R112). -/
def Rotor.offsetOut (r : Rotor) (t : Nat) : Letter := mod26 (t + 26 - r.pos.toNat + r.ring.toNat)

/-- RotFwd: the substitution through a rotor from right to left (R112). -/
def Rotor.fwd (r : Rotor) (x : Nat) : Letter := r.offsetOut (readWfwd r.sel (r.offsetIn x)).toNat

/-- RotBwd: the substitution through a rotor from left to right; only the bank differs (R112). -/
def Rotor.bwd (r : Rotor) (x : Nat) : Letter := r.offsetOut (readWbwd r.sel (r.offsetIn x)).toNat

/-- Turnover of one bank: `POS <- mod26(POS + 1)` (R114). -/
def Rotor.turned (r : Rotor) : Rotor := { r with pos := cellOf (mod26 (r.pos.toNat + 1)) }

/-- Turnover(s): advance one rotor by one position (R114). -/
def Engine.turnover (e : Engine) (k : Slot) : Engine := e.setRotor k (e.rotor k).turned

/-- The bank LDROT writes: all five registers at once, the notches copied from the NOTCH ROM, the slot valid (R111). -/
def Rotor.mounted (sel : BitVec 3) (pos ring : Letter) : Rotor :=
  { sel := sel, pos := cellOf pos, ring := cellOf ring,
    notchA := readNotch sel 0, notchB := readNotch sel 1, valid := true }

/-- LDROT slot, sel, pos, ring (R111). -/
def ldrotResult (slot : BitVec 2) (sel : BitVec 3) (pos ring : BitVec 5) (e : Engine) : Result :=
  match slotOperand slot, letterOperand pos, letterOperand ring with
  | some k, some p, some r => .ok (e.setRotor k (Rotor.mounted sel p r), 0)
  | _, _, _ => .error .badOperand

/-- TURN slot (R115). -/
def turnResult (slot : BitVec 2) (e : Engine) : Result :=
  match slotOperand slot with
  | none => .error .badOperand
  | some k => if (e.rotor k).valid then .ok (e.turnover k, 0) else .error .notConfigured

/-- The checks that XFWD and XBWD share, and their answer from one substitution (R116, R117). -/
def probeResult (through : Rotor → Nat → Letter) (slot : BitVec 2) (x : BitVec 5) (e : Engine) : Result :=
  match slotOperand slot, letterOperand x with
  | some k, some c =>
    if (e.rotor k).valid then .ok (e, cellResult (cellOf (through (e.rotor k) c.val))) else .error .notConfigured
  | _, _ => .error .badOperand

/-- The meaning of LDROT (R111). -/
def execLdrot (slot : BitVec 2) (sel : BitVec 3) (pos ring : BitVec 5) (s : State) : Outcome :=
  s.answer (ldrotResult slot sel pos ring s.engine)

/-- The meaning of TURN (R115). -/
def execTurn (slot : BitVec 2) (s : State) : Outcome := s.answer (turnResult slot s.engine)

/-- The meaning of XFWD (R116). -/
def execXfwd (slot : BitVec 2) (x : BitVec 5) (s : State) : Outcome :=
  s.answer (probeResult Rotor.fwd slot x s.engine)

/-- The meaning of XBWD (R117). -/
def execXbwd (slot : BitVec 2) (x : BitVec 5) (s : State) : Outcome :=
  s.answer (probeResult Rotor.bwd slot x s.engine)

end Sys2Proof.Machine
end

