-- ==== Sys2Proof/Machine/Enigma.lean ====
section
/-! DEFINITION. The machine family: Step, Sub; STEP, ENC, RDST (43_enigma.md). -/

namespace Sys2Proof.Machine

/-- Statement 1 of Step: a middle rotor at a notch moves itself and the left rotor (R151). -/
def Engine.doubleStep (e : Engine) : Engine :=
  if e.atNotch .middle then (e.turnover .middle).turnover .left else e

/-- Statement 2 of Step: a right rotor at a notch moves the middle rotor (R151). -/
def Engine.carry (e : Engine) : Engine :=
  if e.atNotch .right then e.turnover .middle else e

/-- Step(): the three statements in their order; the right rotor always moves, exactly once (R151). -/
def Engine.stepped (e : Engine) : Engine := e.doubleStep.carry.turnover .right

/-- Sub(c): the nine stages S0 to S8 with the positions as they stand (R153). -/
def Engine.sub (e : Engine) (c : Letter) : Cell :=
  let a0 := e.plugged c
  let a1 := e.right.fwd a0.toNat
  let a2 := e.middle.fwd a1.val
  let a3 := e.left.fwd a2.val
  let a4 := e.refl a3
  let a5 := e.left.bwd a4.toNat
  let a6 := e.middle.bwd a5.val
  let a7 := e.right.bwd a6.val
  e.plugged a7

/-- STEP: the transition alone (R155). -/
def stepResult (e : Engine) : Result :=
  if e.rotorsValid then .ok (e.stepped, 0) else .error .notConfigured

/-- ENC ch: the checks, then Step, then Sub with the positions Step left (R150, R154). -/
def encResult (ch : Byte) (e : Engine) : Result :=
  match symbolOperand ch with
  | none => .error .invalidSymbol
  | some c =>
    if e.configured then .ok (e.stepped, symbolResult (e.stepped.sub c)) else .error .notConfigured

/-- RDST: the status word, legal at any time (R156). -/
def rdstResult (e : Engine) : Result := .ok (e, e.status)

/-- The meaning of STEP (R155). -/
def execStep (s : State) : Outcome := s.answer (stepResult s.engine)

/-- The meaning of ENC (R154). -/
def execEnc (ch : Byte) (s : State) : Outcome := s.answer (encResult ch s.engine)

/-- The meaning of RDST (R156). -/
def execRdst (s : State) : Outcome := s.answer (rdstResult s.engine)

end Sys2Proof.Machine
end

