-- ==== Sys2Proof/Machine/Dispatch.lean ====
section
/-! DEFINITION. One arm for each command: a direct call of its meaning. -/

namespace Sys2Proof.Machine

/-- Execute one decoded command (30_encoding.md R97, its last line). -/
def exec (i : Instr) (s : State) : Host.Outcome State Fault Refusal :=
  match i with
  | .pbclr => Sys2Proof.Machine.execPbclr s
  | .pbpair k v => Sys2Proof.Machine.execPbpair k v s
  | .ldrot slot sel pos ring => Sys2Proof.Machine.execLdrot slot sel pos ring s
  | .ldref ch => Sys2Proof.Machine.execLdref ch s
  | .step => Sys2Proof.Machine.execStep s
  | .enc ch => Sys2Proof.Machine.execEnc ch s
  | .rdst => Sys2Proof.Machine.execRdst s
  | .turn slot => Sys2Proof.Machine.execTurn slot s
  | .xfwd slot x => Sys2Proof.Machine.execXfwd slot x s
  | .xbwd slot x => Sys2Proof.Machine.execXbwd slot x s
  | .xref x => Sys2Proof.Machine.execXref x s
  | .xplg x => Sys2Proof.Machine.execXplg x s

end Sys2Proof.Machine
end

