-- ==== Sys2Proof/Machine/Step.lean ====
section
/-! DEFINITION. One step: the engine takes the oldest input the host has presented and runs it to completion
(70_reset_and_hazards.md R195, R196). -/

namespace Sys2Proof.Machine

/-- Run one command word (30_encoding.md R97). -/
def issue (w : Word) (s : State) : Host.Outcome State Fault Refusal :=
  match decode w with
  | .ok i => exec i s
  | .error why => s.rejectWord why

/-- Take the oldest input: a command word is decoded and executed, a pulse of rst resets the engine, and with nothing
presented nothing moves (assumption log 3). -/
def step (s : State) : Host.Outcome State Fault Refusal :=
  match s.inputs with
  | [] => s.idle
  | .reset :: rest => .next { s with inputs := rest }.pulseReset
  | .command w :: rest => issue w { s with inputs := rest }

/-- The state in which the host presents the word as the engine's very next input (assumption log 2). -/
def State.withFetchWord (s : State) (nbits w : Nat) : State := s.present (tableWord nbits w)

end Sys2Proof.Machine
end

