-- ==== Sys2Proof/Machine/Assembler.lean ====
section
/-! DEFINITION. The assembler: the pseudo-operations CONFIGURE and ENCSTR (30_encoding.md R99, R100; 43_enigma.md R159,
R160) and the text of one line (R98, R99). It makes commands; it is not part of the engine. What R98 leaves open about the
text is in assumption log 11. -/

namespace Sys2Proof.Machine

/-- The operand forms of R98, before their field is known. -/
inductive AsmOperand where
  /-- A decimal number. -/
  | number (n : Nat)
  /-- A bare capital letter, by its letter code. -/
  | letter (c : Letter)
  /-- A byte 0x48. -/
  | byte (n : Nat)
  /-- A quoted character, by its character code. -/
  | quoted (n : Nat)
  deriving DecidableEq, Repr

/-- An unsigned number as a field of `n` bits; refused when it is outside the field's width (R98). -/
def asmField (n v : Nat) : Option (BitVec n) := if v < 2 ^ n then some (BitVec.ofNat n v) else none

/-- A slot operand: `0`, `1`, `2` (3 fits the field and is assembled as written) or the alias `L`, `M`, `R` (R98). -/
def asmSlot : AsmOperand → Option (BitVec 2)
  | .number n => asmField 2 n
  | .letter c => if c = 11 then some 0 else if c = 12 then some 1 else if c = 17 then some 2 else none
  | .byte _ => none
  | .quoted _ => none

/-- A decimal operand of `n` bits: sel, pos and ring (R98). -/
def asmDecimal (n : Nat) : AsmOperand → Option (BitVec n)
  | .number v => asmField n v
  | .letter _ => none
  | .byte _ => none
  | .quoted _ => none

/-- A letter-code operand: a decimal number or a bare capital letter meaning its code (R98). -/
def asmCode : AsmOperand → Option (BitVec 5)
  | .number n => asmField 5 n
  | .letter c => some (cellOf c)
  | .byte _ => none
  | .quoted _ => none

/-- A character operand: a quoted character or a byte (R98). -/
def asmChar : AsmOperand → Option (BitVec 8)
  | .number _ => none
  | .letter _ => none
  | .byte n => asmField 8 n
  | .quoted n => asmField 8 n

/-- The command of an opcode and its operand list; refused when an operand does not fit its field or their number is
wrong (R98). -/
def asmCommand (op : Opcode) (args : List AsmOperand) : Option Instr :=
  match op, args with
  | .pbclr, [] => some .pbclr
  | .pbpair, [k, v] => do some (.pbpair (← asmCode k) (← asmCode v))
  | .ldrot, [s, c, p, r] => do
      some (.ldrot (← asmSlot s) (← asmDecimal 3 c) (← asmDecimal 5 p) (← asmDecimal 5 r))
  | .ldref, [c] => do some (.ldref (← asmChar c))
  | .step, [] => some .step
  | .enc, [c] => do some (.enc (← asmChar c))
  | .rdst, [] => some .rdst
  | .turn, [s] => do some (.turn (← asmSlot s))
  | .xfwd, [s, x] => do some (.xfwd (← asmSlot s) (← asmCode x))
  | .xbwd, [s, x] => do some (.xbwd (← asmSlot s) (← asmCode x))
  | .xref, [x] => do some (.xref (← asmCode x))
  | .xplg, [x] => do some (.xplg (← asmCode x))
  | _, _ => none

/-- The opcode of a mnemonic in capitals (R93, R98). -/
def asmMnemonic (name : List Char) : Option Opcode :=
  if name = ['P', 'B', 'C', 'L', 'R'] then some .pbclr
  else if name = ['P', 'B', 'P', 'A', 'I', 'R'] then some .pbpair
  else if name = ['L', 'D', 'R', 'O', 'T'] then some .ldrot
  else if name = ['L', 'D', 'R', 'E', 'F'] then some .ldref
  else if name = ['S', 'T', 'E', 'P'] then some .step
  else if name = ['E', 'N', 'C'] then some .enc
  else if name = ['R', 'D', 'S', 'T'] then some .rdst
  else if name = ['T', 'U', 'R', 'N'] then some .turn
  else if name = ['X', 'F', 'W', 'D'] then some .xfwd
  else if name = ['X', 'B', 'W', 'D'] then some .xbwd
  else if name = ['X', 'R', 'E', 'F'] then some .xref
  else if name = ['X', 'P', 'L', 'G'] then some .xplg
  else none

/-- A blank between the parts of a line: a space or a tab. -/
def asmBlank (c : Char) : Bool := c == ' ' || c == '\t'

/-- The text without its leading blanks. -/
def asmSkip (text : List Char) : List Char := text.dropWhile asmBlank

/-- The value of a hexadecimal digit. -/
def asmHexDigit (c : Char) : Option Nat :=
  if c.isDigit then some (c.toNat - 48)
  else if 97 ≤ c.toNat ∧ c.toNat ≤ 102 then some (c.toNat - 87)
  else if 65 ≤ c.toNat ∧ c.toNat ≤ 70 then some (c.toNat - 55)
  else none

/-- The value of a run of digits in a base, most significant first. -/
def asmDigits (base : Nat) (digits : List Char) : Nat :=
  digits.foldl (fun n c => n * base + (asmHexDigit c).getD 0) 0

/-- The operand at the front of a text, and the rest of the text (R98). Character 39 is the single quote. A number or a
byte may have any number of digits, leading zeros too: DESIGN CHOICE, safe (assumption log 11). -/
def asmOperand (text : List Char) : Option (AsmOperand × List Char) :=
  match text with
  | '0' :: 'x' :: rest =>
    let digits := rest.takeWhile fun c => (asmHexDigit c).isSome
    if digits.isEmpty then none else some (.byte (asmDigits 16 digits), rest.drop digits.length)
  | c :: rest =>
    if c.toNat = 39 then
      match rest with
      | q :: close :: rest' => if close.toNat = 39 then some (.quoted q.toNat, rest') else none
      | _ => none
    else if c.isDigit then
      let digits := text.takeWhile Char.isDigit
      some (.number (asmDigits 10 digits), text.drop digits.length)
    else if h : 65 ≤ c.toNat ∧ c.toNat ≤ 90 then
      some (.letter ⟨c.toNat - 65, by omega⟩, rest)
    else none
  | [] => none

/-- Whether a text holds nothing more than blanks and a comment, which `;` starts (R98). -/
def asmAtEnd (text : List Char) : Bool :=
  match asmSkip text with
  | [] => true
  | c :: _ => c == ';'

/-- Up to `fuel` operands separated by commas, then the end of the line (R98). -/
def asmOperands : Nat → List Char → Option (List AsmOperand)
  | 0, _ => none
  | fuel + 1, text => do
    let (a, rest) ← asmOperand (asmSkip text)
    match asmSkip rest with
    | ',' :: rest' => do
        let more ← asmOperands fuel rest'
        some (a :: more)
    | rest' => if asmAtEnd rest' then some [a] else none

/-- The configuration record that the excluded configuration layer hands to the core (R100). The pairs stand in the
order in which they are written. -/
structure ConfigRecord where
  /-- Catalog indices, in the order left, middle, right. -/
  rotors : List Nat
  /-- Initial positions. -/
  rotorInit : List Nat
  /-- Ring settings. -/
  rotorSetting : List Nat
  /-- The reflector identifier, a single character. -/
  reflectorLetter : Byte
  /-- Pairs of uppercase letters, each a reciprocal swap. R100 calls them a mapping; here they are a list, which can
  hold a key twice: DESIGN CHOICE, unsafe for such a record (assumption log 13). -/
  plugboardSettings : List (Byte × Byte)
  deriving DecidableEq, Repr

/-- The PBPAIR of one pair of uppercase letters; refused for any other characters (R159). -/
def configurePair (p : Byte × Byte) : Option Instr := do
  let k ← symbolOperand p.1
  let v ← symbolOperand p.2
  some (.pbpair (cellOf k) (cellOf v))

/-- The PBPAIRs of a list of pairs, in the order written, one for each pair (R100, R159). A key written twice gives two
PBPAIRs and no refusal: DESIGN CHOICE, unsafe for such a record (assumption log 13). -/
def configurePairs : List (Byte × Byte) → Option (List Instr)
  | [] => some []
  | p :: ps => do
    let i ← configurePair p
    let is ← configurePairs ps
    some (i :: is)

/-- The LDROT of one slot; refused when the index is above 7 or a position or setting is above 25 (R159). -/
def configureSlot (slot : BitVec 2) (sel pos ring : Nat) : Option Instr :=
  if sel ≤ 7 ∧ pos ≤ 25 ∧ ring ≤ 25 then
    some (.ldrot slot (BitVec.ofNat 3 sel) (BitVec.ofNat 5 pos) (BitVec.ofNat 5 ring))
  else none

/-- CONFIGURE: PBCLR, one PBPAIR for each pair, LDROT for left, middle and right, LDREF; refused when a sequence has
not exactly three elements or an element is out of its range (R159). -/
def configure (rec : ConfigRecord) : Option (List Instr) :=
  match rec.rotors, rec.rotorInit, rec.rotorSetting with
  | [a, b, c], [p, q, r], [x, y, z] => do
    let pairs ← configurePairs rec.plugboardSettings
    let left ← configureSlot 0 a p x
    let middle ← configureSlot 1 b q y
    let right ← configureSlot 2 c r z
    some (.pbclr :: pairs ++ [left, middle, right, .ldref rec.reflectorLetter])
  | _, _, _ => none

/-- ENCSTR: one ENC for each character, left to right; the empty string expands to nothing (R160). -/
def encstr (text : List Byte) : List Instr := text.map Instr.enc

/-- The text after a fixed piece, which may have blanks before it; refused when the piece is not there. -/
def asmEat (piece text : List Char) : Option (List Char) :=
  let start := asmSkip text
  if piece.isPrefixOf start then some (start.drop piece.length) else none

/-- The double quote, character 34. -/
def asmQuote : Char := Char.ofNat 34

/-- The braces, characters 123 and 125. -/
def asmOpen : Char := Char.ofNat 123

@[inherit_doc asmOpen]
def asmClose : Char := Char.ofNat 125

/-- Up to `fuel` decimal numbers separated by commas, then the closing bracket, and the rest of the text (R99). -/
def asmNumbers : Nat → List Char → Option (List Nat × List Char)
  | 0, _ => none
  | fuel + 1, text =>
    match asmOperand (asmSkip text) with
    | some (.number n, rest) =>
      match asmSkip rest with
      | ',' :: rest' => do
          let (more, last) ← asmNumbers fuel rest'
          some (n :: more, last)
      | ']' :: rest' => some ([n], rest')
      | _ => none
    | _ => none

/-- A sequence field of CONFIGURE: its name, `=` and the numbers in brackets (R99). How many there are is checked by
`configure`. Where blanks may stand is DESIGN CHOICE, safe (assumption log 11). -/
def asmSequence (name text : List Char) : Option (List Nat × List Char) := do
  let rest ← asmEat ['['] (← asmEat ['='] (← asmEat name text))
  match asmEat [']'] rest with
  | some rest' => some ([], rest')
  | none => asmNumbers rest.length rest

/-- Up to `fuel` pairs `K:V` separated by commas, then the closing brace, and the rest of the text, in the order
written (R99, R100). Whether the characters are uppercase letters is checked by `configure`. A key written twice is kept
twice: DESIGN CHOICE, unsafe for such a record (assumption log 13). -/
def asmPairs : Nat → List Char → Option (List (Byte × Byte) × List Char)
  | 0, _ => none
  | fuel + 1, text =>
    match asmSkip text with
    | k :: rest => do
      let valueText ← asmEat [':'] rest
      match asmSkip valueText with
      | v :: rest' => do
        let key ← asmField 8 k.toNat
        let value ← asmField 8 v.toNat
        match asmSkip rest' with
        | c :: rest'' =>
          if c = asmClose then some ([(key, value)], rest'')
          else if c = ',' then do
            let (more, last) ← asmPairs fuel rest''
            some ((key, value) :: more, last)
          else none
        | [] => none
      | [] => none
    | [] => none

/-- The configuration record written after CONFIGURE, its five fields in the order of R99. The letter of the reflector
may be a byte too, and no blank is needed between two fields: DESIGN CHOICE, safe (assumption log 11). -/
def asmRecord (text : List Char) : Option ConfigRecord := do
  let (rotors, text) ← asmSequence "rotors".toList text
  let (rotorInit, text) ← asmSequence "rotor_init".toList text
  let (rotorSetting, text) ← asmSequence "rotor_setting".toList text
  let text ← asmEat ['='] (← asmEat "reflector_letter".toList text)
  let (letter, text) ← asmOperand (asmSkip text)
  let reflectorLetter ← asmChar letter
  let text ← asmEat [asmOpen] (← asmEat ['='] (← asmEat "plugboard_settings".toList text))
  let (plugboardSettings, text) ←
    match asmEat [asmClose] text with
    | some rest => some ([], rest)
    | none => asmPairs text.length text
  if asmAtEnd text then some { rotors, rotorInit, rotorSetting, reflectorLetter, plugboardSettings } else none

/-- The characters between the double quotes after ENCSTR, each a byte (R99). -/
def asmText (text : List Char) : Option (List Byte) := do
  let rest ← asmEat [asmQuote] text
  let body := rest.takeWhile fun c => c ≠ asmQuote
  let last ← asmEat [asmQuote] (rest.drop body.length)
  if asmAtEnd last then body.mapM fun c => asmField 8 c.toNat else none

/-- The operands of a command line, after its mnemonic (R98). No command has more than four. -/
def asmArguments (rest : List Char) : Option (List AsmOperand) :=
  if asmAtEnd rest then some [] else asmOperands 4 rest

/-- One line of assembler text: a blank or comment line gives no command, a command line gives one, CONFIGURE and
ENCSTR give their expansions, and any other text is refused (R98, R99). A line break is no blank, so a CONFIGURE that
runs over two lines is refused: DESIGN CHOICE, safe (assumption log 11). -/
def assembleLine (text : List Char) : Option (List Instr) :=
  if asmAtEnd text then some []
  else
    let start := asmSkip text
    let name := start.takeWhile Char.isUpper
    let rest := start.drop name.length
    if !asmAtEnd rest && !(rest.head?.map asmBlank).getD false then none
    else if name = "CONFIGURE".toList then (asmRecord rest).bind configure
    else if name = "ENCSTR".toList then (asmText rest).map encstr
    else do
      let op ← asmMnemonic name
      let args ← asmArguments rest
      let i ← asmCommand op args
      some [i]

end Sys2Proof.Machine
end

