-- ==== Sys2Proof/Safety.lean ====
section
/-! DEFINITION. The terms in which claims about the engine are made: how a command ends, the range invariant, what
unloaded registers may hide, and runs of several commands. -/

namespace Sys2Proof.Machine

/-- The command answers the word and leaves the engine `e`; the inputs still waiting are untouched (R96). -/
def Answers (i : Instr) (s : State) (e : Engine) (w : Word) : Prop :=
  exec i s = .next { s with engine := e, responses := s.responses ++ [w] }

/-- The command answers the word and changes nothing else (R171 (a), (b), (c)). -/
def AnswersOnly (i : Instr) (s : State) (w : Word) : Prop := Answers i s s.engine w

/-- The command ends normally: it answers a word whose bit 31 is 0 (R96). -/
def EndsNormally (i : Instr) (s : State) : Prop :=
  ∃ e w, Answers i s e w ∧ w.getLsbD 31 = false

/-- What holds of a loaded slot: position and ring setting in 0..25, notches those of the catalog row (R23, R25). -/
abbrev Rotor.Inv (r : Rotor) : Prop :=
  r.valid = true →
    r.pos.toNat ≤ 25 ∧ r.ring.toNat ≤ 25 ∧ r.notchA = readNotch r.sel 0 ∧ r.notchB = readNotch r.sel 1

/-- The range invariant of the engine: of every loaded slot (R23, R25), of REFSEL once a reflector is mounted (R26) and
of PLUG once it is started (R29, R60). -/
abbrev Engine.Inv (e : Engine) : Prop :=
  e.left.Inv ∧ e.middle.Inv ∧ e.right.Inv ∧ (e.vref = true → e.refsel ≠ 3) ∧ (e.vplg = true → e.plug.wf = true)

/-- Two slots that differ at most in registers that are not loaded (R33, R191). -/
def Rotor.SameWhereLoaded (r r' : Rotor) : Prop := r.valid = r'.valid ∧ (r.valid = true → r = r')

/-- Two engines that differ at most in state whose valid flag is 0 (R33, R191). -/
def Engine.SameWhereLoaded (e e' : Engine) : Prop :=
  e.left.SameWhereLoaded e'.left ∧ e.middle.SameWhereLoaded e'.middle ∧ e.right.SameWhereLoaded e'.right ∧
  e.vref = e'.vref ∧ (e.vref = true → e.refsel = e'.refsel) ∧
  e.vplg = e'.vplg ∧ (e.vplg = true → e.plug = e'.plug)

/-- PLUG is an involution on the letter codes (R145). -/
def Memory.Involutive (m : Memory) : Prop := ∀ x : Letter, ∃ y : Letter, m.read x = cellOf y ∧ m.read y = cellOf x

/-- The slot operand names the slot whose bank is `r` (R83). -/
def Engine.SlotHolds (e : Engine) (slot : BitVec 2) (r : Rotor) : Prop :=
  (slot = 0 ∧ r = e.left) ∨ (slot = 1 ∧ r = e.middle) ∨ (slot = 2 ∧ r = e.right)

/-- The slot operand names a slot that is not loaded (R83, R174). -/
abbrev Engine.SlotUnloaded (e : Engine) (slot : BitVec 2) : Prop :=
  (slot = 0 ∧ e.left.valid = false) ∨ (slot = 1 ∧ e.middle.valid = false) ∨ (slot = 2 ∧ e.right.valid = false)

/-- Commands one after the other (R65, R195). -/
def execList : List Instr → State → Outcome
  | [], s => .next s
  | i :: is, s =>
    match exec i s with
    | .next t => execList is t
    | .fault f => .fault f
    | .refused r => .refused r

/-- The pairs of the PBPAIRs whose operands are letter codes: those accepted while VPLG is 1 (R60, R142). -/
def acceptedPairs : List Instr → List (Letter × Letter)
  | [] => []
  | i :: is =>
    match i with
    | .pbpair k v =>
      match letterOperand k, letterOperand v with
      | some a, some b => (a, b) :: acceptedPairs is
      | _, _ => acceptedPairs is
    | _ => acceptedPairs is

/-- The character byte of a letter code (R81). -/
def charOf (x : Letter) : Byte := BitVec.ofNat 8 (0x41 + x.val)

/-- The response word that carries the character of a letter code (R81, R96). -/
def charWord (x : Letter) : Word := BitVec.ofNat 32 (0x41 + x.val)

/-- The ENC of each letter of a text (R160). -/
def encLetters (text : List Letter) : List Instr := encstr (text.map charOf)

end Sys2Proof.Machine
end

