-- ==== Sys2Proof/Certificates/Slice0/Obligations.lean ====
section
/-! DEFINITION. The statements for the provers. A statement about every state holds in states no run reaches too; where
it needs the ranges of the loaded registers it takes Engine.Inv, which StepKeepsTheRangeInvariant says every step keeps.
"Unchanged" is said by the next state written out as an update of the old one: what the update does not name is as it
was. -/

open Sys2Proof Sys2Proof.Machine

/-! ### Words and decoding -/

/-- 30_encoding.md R93, R98: one word of each row, from the worked examples of the spec, and two illegal words. -/
def Obligations.DecodeReadsOneWordOfEachRow : Prop :=
  decode 0x10000000 = .ok .pbclr ∧
  decode 0x20000110 = .ok (.pbpair 1 16) ∧
  decode 0x32030C05 = .ok (.ldrot 2 3 12 5) ∧
  decode 0x40000042 = .ok (.ldref 0x42) ∧
  decode 0x50000000 = .ok .step ∧
  decode 0x60000048 = .ok (.enc 0x48) ∧
  decode 0x70000000 = .ok .rdst ∧
  decode 0x81000000 = .ok (.turn 1) ∧
  decode 0x90000019 = .ok (.xfwd 0 25) ∧
  decode 0xA1000009 = .ok (.xbwd 1 9) ∧
  decode 0xB0000018 = .ok (.xref 24) ∧
  decode 0xC0000010 = .ok (.xplg 16) ∧
  decode 0x00000000 = .error .reservedOpcode ∧
  decode 0xFFFFFFFF = .error .reservedOpcode

/-- 30_encoding.md R84, R95, R98: every command, with every operand its fields can hold, is read back from its word. -/
def Obligations.DecodeOfEncodeIsTheCommand : Prop :=
  ∀ i : Instr, decode (encode i) = .ok i

/-- 30_encoding.md R94. -/
def Obligations.ReservedOpcodesRaiseIllegalCommand : Prop :=
  (∀ (s : State) (w : Word) (rest : List Input), s.inputs = .command w :: rest →
    w >>> 28 = 0x0 ∨ w >>> 28 = 0xD ∨ w >>> 28 = 0xE ∨ w >>> 28 = 0xF →
    step s = .next { s with inputs := rest, responses := s.responses ++ [0x80000001] }) ∧
  (∀ s t : State, exec .rdst s = .next t → t.engine = s.engine)

/-- 30_encoding.md R95, with the rows (opcode, match, mask) of R93 written out. -/
def Obligations.SetReservedBitsRaiseIllegalCommand : Prop :=
  (∀ row ∈ ([(0x1, 0x10000000, 0xFFFFFFFF), (0x2, 0x20000000, 0xFFFFE0E0), (0x3, 0x30000000, 0xFCF8E0E0),
        (0x4, 0x40000000, 0xFFFFFF00), (0x5, 0x50000000, 0xFFFFFFFF), (0x6, 0x60000000, 0xFFFFFF00),
        (0x7, 0x70000000, 0xFFFFFFFF), (0x8, 0x80000000, 0xFCFFFFFF), (0x9, 0x90000000, 0xFCFFFFE0),
        (0xA, 0xA0000000, 0xFCFFFFE0), (0xB, 0xB0000000, 0xFFFFFFE0), (0xC, 0xC0000000, 0xFFFFFFE0)] :
        List (Word × Word × Word)),
    ∀ (s : State) (w : Word) (rest : List Input), s.inputs = .command w :: rest → w >>> 28 = row.1 →
      (w &&& row.2.2 ≠ row.2.1 →
        step s = .next { s with inputs := rest, responses := s.responses ++ [0x80000001] }) ∧
      (w &&& row.2.2 = row.2.1 →
        ∃ i, decode w = .ok i ∧ encode i = w ∧ step s = exec i { s with inputs := rest })) ∧
  (∀ (w w' : Word) (i : Instr), decode w = .ok i → decode w' = .ok i → w = w')

/-! ### Steps and ports -/

/-- 30_encoding.md R97, 70_reset_and_hazards.md R195: a step on a presented word that decodes is the execution of its
command, with the word taken from the command port first. -/
def Obligations.StepRunsTheDecodedCommand : Prop :=
  ∀ (s : State) (w : Word) (rest : List Input) (i : Instr),
    s.inputs = .command w :: rest → decode w = .ok i → step s = exec i { s with inputs := rest }

/-- 70_reset_and_hazards.md sections 1 and 4: a pulse of rst puts the engine in the reset state and answers nothing, and
with nothing presented nothing moves. The spec gives the five valid flags of that state only. The model's choices are
that the registers R191 leaves unspecified hold the values named for power-on again (log 4, 5, unsafe), that the ports
keep their contents (log 2, 5), and that the idle step is a next state (log 3). -/
def Obligations.StepTakesRstAndIdles : Prop :=
  (∀ (s : State) (rest : List Input), s.inputs = .reset :: rest →
    step s = .next { s with inputs := rest, engine := State.reset.engine }) ∧
  (∀ s : State, s.inputs = [] → step s = .next s)

/-- A word that the host presents is what the very next step runs (log 2, 9). -/
def Obligations.PresentedWordRunsNext : Prop :=
  ∀ (s : State) (nbits w : Nat) (i : Instr),
    decodeTableWord nbits w = some i → step (s.withFetchWord nbits w) = exec i s

/-- 30_encoding.md R96, 60_exceptions.md R180, 70_reset_and_hazards.md R201, R202: a run takes every input the host has
presented, never stops early, and answers one word for each command word, after the answers already given. The inputs
may hold pulses of rst. That the words waiting behind one are still answered, and that the earlier answers are kept, is
the model's choice (log 2, 5: rst is an input taken in its turn and empties no port). -/
def Obligations.RunAnswersEveryCommand : Prop :=
  ∀ s : State, ∃ t : State, Sys2Proof.core.run s.inputs.length s = .next t ∧
    t.inputs = [] ∧
    s.responses <+: t.responses ∧
    t.responses.length = s.responses.length + (s.inputs.filter fun i => decide (i ≠ .reset)).length

/-- 30_encoding.md R96: one response word for each command word, normal or a fault code 1..4, and the range of a normal
result by command. -/
def Obligations.ResponseWordHasTheShapeOfItsCommand : Prop :=
  (∀ (s : State) (w : Word) (rest : List Input), s.inputs = .command w :: rest →
    ∃ t r, step s = .next t ∧ t.inputs = rest ∧ t.responses = s.responses ++ [r] ∧
      (r.getLsbD 31 = false ∨ r = 0x80000001 ∨ r = 0x80000002 ∨ r = 0x80000003 ∨ r = 0x80000004)) ∧
  (∀ (i : Instr) (s t : State) (r : Word), s.engine.Inv → exec i s = .next t →
    t.responses = s.responses ++ [r] → r.getLsbD 31 = false →
    match i with
    | .pbclr | .pbpair _ _ | .ldrot _ _ _ _ | .ldref _ | .step | .turn _ => r = 0
    | .enc _ => 0x41 ≤ r.toNat ∧ r.toNat ≤ 0x5A
    | .xfwd _ _ | .xbwd _ _ | .xref _ | .xplg _ => r.toNat ≤ 25
    | .rdst => r.toNat < 2 ^ 25)

/-! ### Faults -/

/-- 60_exceptions.md R171, R179: a command word answered with bit 31 set changed nothing but the ports, whatever the
word, and its code is 1, 2, 3 or 4. -/
def Obligations.FaultEntryChangesNothing : Prop :=
  ∀ (s t : State) (w r : Word) (rest : List Input), s.inputs = .command w :: rest → step s = .next t →
    t.responses = s.responses ++ [r] → r.getLsbD 31 = true →
    t = { s with inputs := rest, responses := s.responses ++ [r] } ∧
    (r = 0x80000001 ∨ r = 0x80000002 ∨ r = 0x80000003 ∨ r = 0x80000004)

/-- 60_exceptions.md R173, R174 (and the order of R176 between them): for each command, exactly when it answers
BadOperand (2), InvalidSymbol (4) or NotConfigured (3), and that it ends normally otherwise. -/
def Obligations.FaultsByCommandAndPriority : Prop :=
  ∀ s : State,
    EndsNormally .pbclr s ∧
    (∀ k v : BitVec 5,
      if 25 < k.toNat ∨ 25 < v.toNat then AnswersOnly (.pbpair k v) s 0x80000002
      else if s.engine.vplg = false then AnswersOnly (.pbpair k v) s 0x80000003
      else EndsNormally (.pbpair k v) s) ∧
    (∀ (slot : BitVec 2) (sel : BitVec 3) (pos ring : BitVec 5),
      if slot = 3 ∨ 25 < pos.toNat ∨ 25 < ring.toNat then AnswersOnly (.ldrot slot sel pos ring) s 0x80000002
      else EndsNormally (.ldrot slot sel pos ring) s) ∧
    (∀ ch : BitVec 8, EndsNormally (.ldref ch) s) ∧
    (if s.engine.left.valid = false ∨ s.engine.middle.valid = false ∨ s.engine.right.valid = false then
      AnswersOnly .step s 0x80000003
     else EndsNormally .step s) ∧
    (∀ ch : BitVec 8,
      if ch.toNat < 0x41 ∨ 0x5A < ch.toNat then AnswersOnly (.enc ch) s 0x80000004
      else if s.engine.left.valid = false ∨ s.engine.middle.valid = false ∨ s.engine.right.valid = false ∨
          s.engine.vref = false ∨ s.engine.vplg = false then AnswersOnly (.enc ch) s 0x80000003
      else EndsNormally (.enc ch) s) ∧
    EndsNormally .rdst s ∧
    (∀ slot : BitVec 2,
      if slot = 3 then AnswersOnly (.turn slot) s 0x80000002
      else if s.engine.SlotUnloaded slot then AnswersOnly (.turn slot) s 0x80000003
      else EndsNormally (.turn slot) s) ∧
    (∀ (slot : BitVec 2) (x : BitVec 5),
      if slot = 3 ∨ 25 < x.toNat then
        AnswersOnly (.xfwd slot x) s 0x80000002 ∧ AnswersOnly (.xbwd slot x) s 0x80000002
      else if s.engine.SlotUnloaded slot then
        AnswersOnly (.xfwd slot x) s 0x80000003 ∧ AnswersOnly (.xbwd slot x) s 0x80000003
      else EndsNormally (.xfwd slot x) s ∧ EndsNormally (.xbwd slot x) s) ∧
    (∀ x : BitVec 5,
      if 25 < x.toNat then AnswersOnly (.xref x) s 0x80000002
      else if s.engine.vref = false then AnswersOnly (.xref x) s 0x80000003
      else EndsNormally (.xref x) s) ∧
    (∀ x : BitVec 5,
      if 25 < x.toNat then AnswersOnly (.xplg x) s 0x80000002
      else if s.engine.vplg = false then AnswersOnly (.xplg x) s 0x80000003
      else EndsNormally (.xplg x) s)

/-- 30_encoding.md R92: the operand faults are exactly those of the ill-formed commands, in every state. -/
def Obligations.OperandFaultsAreTheIllFormedCommands : Prop :=
  ∀ (i : Instr) (s : State),
    (i.wellFormed = false → AnswersOnly i s 0x80000002 ∨ AnswersOnly i s 0x80000004) ∧
    (i.wellFormed = true → ¬ AnswersOnly i s 0x80000002 ∧ ¬ AnswersOnly i s 0x80000004)

/-! ### What each command may write -/

/-- 10_state.md section 5: the write matrix, row by row, and that a faulting command writes nothing. The spec marks the
matrix as its own inference from the command rules. -/
def Obligations.WriteMatrix : Prop :=
  ∀ (i : Instr) (s t : State), exec i s = .next t →
    t.inputs = s.inputs ∧
    (∀ r, t.responses = s.responses ++ [r] → r.getLsbD 31 = true → t.engine = s.engine) ∧
    match i with
    | .pbclr => t.engine = { s.engine with plug := t.engine.plug, vplg := true }
    | .pbpair k v =>
      t.engine = { s.engine with plug := t.engine.plug } ∧
      ∀ x : Letter, x.val ≠ k.toNat → x.val ≠ v.toNat → t.engine.plug.read x = s.engine.plug.read x
    | .ldrot slot _ _ _ =>
      t.engine = s.engine ∨
      (slot = 0 ∧ t.engine = { s.engine with left := { t.engine.left with valid := true } }) ∨
      (slot = 1 ∧ t.engine = { s.engine with middle := { t.engine.middle with valid := true } }) ∨
      (slot = 2 ∧ t.engine = { s.engine with right := { t.engine.right with valid := true } })
    | .ldref _ => t.engine = { s.engine with refsel := t.engine.refsel, vref := true }
    | .step | .enc _ =>
      t.engine = { s.engine with
        left := { s.engine.left with pos := t.engine.left.pos }
        middle := { s.engine.middle with pos := t.engine.middle.pos }
        right := { s.engine.right with pos := t.engine.right.pos } }
    | .turn slot =>
      (slot = 0 ∧ t.engine = { s.engine with left := { s.engine.left with pos := t.engine.left.pos } }) ∨
      (slot = 1 ∧ t.engine = { s.engine with middle := { s.engine.middle with pos := t.engine.middle.pos } }) ∨
      (slot = 2 ∧ t.engine = { s.engine with right := { s.engine.right with pos := t.engine.right.pos } }) ∨
      (slot = 3 ∧ t.engine = s.engine)
    | .rdst | .xfwd _ _ | .xbwd _ _ | .xref _ | .xplg _ => t.engine = s.engine

/-- 10_state.md R27: no command clears a valid flag, and each is set by its own command only. -/
def Obligations.ValidFlagsAreSetByTheirCommandOnly : Prop :=
  ∀ (i : Instr) (s t : State), exec i s = .next t →
    (s.engine.left.valid = true → t.engine.left.valid = true) ∧
    (s.engine.middle.valid = true → t.engine.middle.valid = true) ∧
    (s.engine.right.valid = true → t.engine.right.valid = true) ∧
    (s.engine.vref = true → t.engine.vref = true) ∧
    (s.engine.vplg = true → t.engine.vplg = true) ∧
    (t.engine.left.valid ≠ s.engine.left.valid → ∃ sel pos ring, i = .ldrot 0 sel pos ring) ∧
    (t.engine.middle.valid ≠ s.engine.middle.valid → ∃ sel pos ring, i = .ldrot 1 sel pos ring) ∧
    (t.engine.right.valid ≠ s.engine.right.valid → ∃ sel pos ring, i = .ldrot 2 sel pos ring) ∧
    (t.engine.vref ≠ s.engine.vref → ∃ ch, i = .ldref ch) ∧
    (t.engine.vplg ≠ s.engine.vplg → i = .pbclr)

/-! ### Reset and invariants -/

/-- 70_reset_and_hazards.md R190, R191: the values the spec gives for reset, after power-on and after a pulse of rst,
and that RDST then answers 0. -/
def Obligations.ResetClearsTheValidFlags : Prop :=
  (∀ s : State, s = State.reset ∨ (∃ s' : State, s'.inputs.head? = some .reset ∧ step s' = .next s) →
    s.engine.left.valid = false ∧ s.engine.middle.valid = false ∧ s.engine.right.valid = false ∧
    s.engine.vref = false ∧ s.engine.vplg = false ∧
    exec .rdst s = .next { s with responses := s.responses ++ [0] })

/-- The range invariant holds at reset. -/
def Obligations.ResetMeetsTheRangeInvariant : Prop := State.reset.engine.Inv

/-- 10_state.md R23, R25, R26, R29: every step keeps the range invariant, whatever the host presents. -/
def Obligations.StepKeepsTheRangeInvariant : Prop :=
  ∀ s t : State, s.engine.Inv → step s = .next t → t.engine.Inv

/-- 10_state.md R33, 70_reset_and_hazards.md R191, R202: two engines that differ only in state whose valid flag is 0,
given the same inputs, answer the same words and go on differing only there. So no value that reset leaves unspecified,
and no value that log 4 names for it, is ever observed. -/
def Obligations.UnloadedRegistersAreNeverObserved : Prop :=
  ∀ s s' t t' : State, s.engine.SameWhereLoaded s'.engine → s.inputs = s'.inputs → s.responses = s'.responses →
    step s = .next t → step s' = .next t' →
    t.engine.SameWhereLoaded t'.engine ∧ t.inputs = t'.inputs ∧ t.responses = t'.responses

/-- 10_state.md section 4: the left rotor's notch registers reach no answer and no other register, except through RDST.
The spec marks this as its own inference from the stepping rule. -/
def Obligations.LeftNotchReachesOnlyTheStatusWord : Prop :=
  ∀ (i : Instr) (s : State) (a b : Cell) (e : Engine) (w : Word), i ≠ .rdst → Answers i s e w →
    ∃ e', Answers i { s with engine := { s.engine with left := { s.engine.left with notchA := a, notchB := b } } } e' w ∧
      (e' = e ∨ e' = { e with left := { e.left with notchA := a, notchB := b } })

/-! ### The plugboard family -/

/-- 42_plugboard.md R141: every PLUG cell holds its own index, VPLG is 1, nothing else changes. -/
def Obligations.PbclrWritesTheIdentity : Prop :=
  ∀ s : State, ∃ m : Memory, (∀ x : Letter, (m.read x).toNat = x.val) ∧
    exec .pbclr s =
      .next { s with engine := { s.engine with plug := m, vplg := true }, responses := s.responses ++ [0] }

/-- 42_plugboard.md R142: PLUG[k] becomes v, PLUG[v] becomes k, and no other cell changes, also when k = v and when a
letter was used before. -/
def Obligations.PbpairWritesItsTwoCells : Prop :=
  ∀ (s : State) (k v : BitVec 5), k.toNat ≤ 25 → v.toNat ≤ 25 → s.engine.vplg = true →
    ∃ m : Memory,
      (∀ x : Letter, m.read x =
        if x.val = k.toNat then v else if x.val = v.toNat then k else s.engine.plug.read x) ∧
      exec (.pbpair k v) s =
        .next { s with engine := { s.engine with plug := m }, responses := s.responses ++ [0] }

/-- 42_plugboard.md R143: XPLG answers the cell and changes nothing. -/
def Obligations.XplgAnswersTheCell : Prop :=
  ∀ (s : State) (x : BitVec 5) (hx : x.toNat < 26), s.engine.vplg = true →
    exec (.xplg x) s =
      .next { s with responses := s.responses ++ [(s.engine.plug.read ⟨x.toNat, hx⟩).setWidth 32] }

/-- 20_memory.md R60: PLUG is the replay, in order and from the identity, of the PBPAIRs accepted since the last PBCLR,
whatever other commands stand among them. -/
def Obligations.PlugIsTheReplayOfTheAcceptedPairs : Prop :=
  ∀ (cmds : List Instr) (s : State), (∀ i ∈ cmds, i ≠ .pbclr) →
    ∃ t : State, execList (.pbclr :: cmds) s = .next t ∧
      t.engine.plug =
        (acceptedPairs cmds).foldl (fun m p => (m.write p.1 (cellOf p.2)).write p.2 (cellOf p.1)) Memory.identity ∧
      ∀ x : Letter, (t.engine.plug.read x).toNat ≤ 25

/-- 42_plugboard.md R145: with no letter code in two accepted pairs, PLUG is an involution and a bijection, and a pair
k = v leaves the identity on k. -/
def Obligations.PlugIsAnInvolutionWithoutReuse : Prop :=
  ∀ (cmds : List Instr) (s : State), (∀ i ∈ cmds, i ≠ .pbclr) →
    (acceptedPairs cmds).Pairwise (fun p q => p.1 ≠ q.1 ∧ p.1 ≠ q.2 ∧ p.2 ≠ q.1 ∧ p.2 ≠ q.2) →
    ∃ t : State, execList (.pbclr :: cmds) s = .next t ∧
      t.engine.plug.Involutive ∧
      (∀ y : Letter, ∃! x : Letter, t.engine.plug.read x = cellOf y) ∧
      (∀ p ∈ acceptedPairs cmds, p.1 = p.2 → t.engine.plug.read p.1 = cellOf p.1)

/-- 42_plugboard.md R144: a reused letter. The overwritten partner keeps pointing at the letter, so two letters map to
one and the table is no involution; nothing faults. -/
def Obligations.ReusedLetterLeavesAStalePartner : Prop :=
  ∀ (s : State) (a b c : Letter), a ≠ b → a ≠ c → b ≠ c →
    ∃ m : Memory,
      execList [.pbclr, .pbpair (cellOf a) (cellOf b), .pbpair (cellOf a) (cellOf c)] s =
        .next { s with engine := { s.engine with plug := m, vplg := true }, responses := s.responses ++ [0, 0, 0] } ∧
      m.read a = cellOf c ∧ m.read c = cellOf a ∧ m.read b = cellOf a ∧
      (∀ x : Letter, x ≠ a → x ≠ b → x ≠ c → m.read x = cellOf x) ∧
      (∀ x : Letter, m.read x ≠ cellOf b) ∧
      ¬ m.Involutive

/-! ### The rotor family -/

/-- 40_rotor.md R111: all five registers of the slot at once, its valid flag, and nothing else. -/
def Obligations.LdrotMountsTheRotor : Prop :=
  ∀ (s : State) (sel : BitVec 3) (pos ring : BitVec 5), pos.toNat ≤ 25 → ring.toNat ≤ 25 →
    let r : Rotor := { sel := sel, pos := pos, ring := ring,
                       notchA := readNotch sel 0, notchB := readNotch sel 1, valid := true }
    exec (.ldrot 0 sel pos ring) s =
      .next { s with engine := { s.engine with left := r }, responses := s.responses ++ [0] } ∧
    exec (.ldrot 1 sel pos ring) s =
      .next { s with engine := { s.engine with middle := r }, responses := s.responses ++ [0] } ∧
    exec (.ldrot 2 sel pos ring) s =
      .next { s with engine := { s.engine with right := r }, responses := s.responses ++ [0] }

/-- 40_rotor.md R114, R115: the position of the one slot goes up by one modulo 26. -/
def Obligations.TurnAdvancesOneRotor : Prop :=
  ∀ s : State,
    (s.engine.left.valid = true → exec (.turn 0) s =
      .next { s with
        engine := { s.engine with
          left := { s.engine.left with pos := BitVec.ofNat 5 ((s.engine.left.pos.toNat + 1) % 26) } }
        responses := s.responses ++ [0] }) ∧
    (s.engine.middle.valid = true → exec (.turn 1) s =
      .next { s with
        engine := { s.engine with
          middle := { s.engine.middle with pos := BitVec.ofNat 5 ((s.engine.middle.pos.toNat + 1) % 26) } }
        responses := s.responses ++ [0] }) ∧
    (s.engine.right.valid = true → exec (.turn 2) s =
      .next { s with
        engine := { s.engine with
          right := { s.engine.right with pos := BitVec.ofNat 5 ((s.engine.right.pos.toNat + 1) % 26) } }
        responses := s.responses ++ [0] })

/-- 40_rotor.md R114: twenty-six turns of a loaded slot bring the engine back. -/
def Obligations.TwentySixTurnsRestoreTheEngine : Prop :=
  ∀ (s : State) (slot : BitVec 2) (r : Rotor), s.engine.Inv → s.engine.SlotHolds slot r → r.valid = true →
    execList (List.replicate 26 (.turn slot)) s =
      .next { s with responses := s.responses ++ List.replicate 26 0 }

/-- 40_rotor.md R112, R116: XFWD answers the formula of the forward pass and changes nothing. -/
def Obligations.XfwdAnswersTheForwardPass : Prop :=
  ∀ (s : State) (slot : BitVec 2) (x : BitVec 5) (r : Rotor),
    s.engine.SlotHolds slot r → r.valid = true → x.toNat ≤ 25 →
    exec (.xfwd slot x) s =
      .next { s with responses := s.responses ++
        [BitVec.ofNat 32 (((readWfwd r.sel (mod26 (x.toNat + 26 + r.pos.toNat - r.ring.toNat))).toNat
          + 26 - r.pos.toNat + r.ring.toNat) % 26)] }

/-- 40_rotor.md R112, R117: XBWD answers the formula of the backward pass and changes nothing. -/
def Obligations.XbwdAnswersTheBackwardPass : Prop :=
  ∀ (s : State) (slot : BitVec 2) (x : BitVec 5) (r : Rotor),
    s.engine.SlotHolds slot r → r.valid = true → x.toNat ≤ 25 →
    exec (.xbwd slot x) s =
      .next { s with responses := s.responses ++
        [BitVec.ofNat 32 (((readWbwd r.sel (mod26 (x.toNat + 26 + r.pos.toNat - r.ring.toNat))).toNat
          + 26 - r.pos.toNat + r.ring.toNat) % 26)] }

/-- 20_memory.md R55, R56: the two wiring banks are inverse to each other, and every row is a permutation. -/
def Obligations.WiringBanksAreInversePermutations : Prop :=
  ∀ row : BitVec 3,
    (∀ i : Letter,
      (readWfwd row i).toNat ≤ 25 ∧ (readWbwd row i).toNat ≤ 25 ∧
      readWbwd row (mod26 (readWfwd row i).toNat) = cellOf i ∧
      readWfwd row (mod26 (readWbwd row i).toNat) = cellOf i) ∧
    (∀ v : Letter, ∃! i : Letter, readWfwd row i = cellOf v)

/-- 40_rotor.md R118: the two passes undo each other at any position and ring setting, so both are bijections. -/
def Obligations.RotorPassesAreInverse : Prop :=
  ∀ r : Rotor, r.pos.toNat ≤ 25 → r.ring.toNat ≤ 25 →
    (∀ x : Letter, r.bwd (r.fwd x.val).val = x ∧ r.fwd (r.bwd x.val).val = x) ∧
    Function.Bijective (fun x : Letter => r.fwd x.val) ∧
    Function.Bijective (fun x : Letter => r.bwd x.val)

/-- 40_rotor.md section 1: the passes depend on position and ring setting only through their difference, by the formula
given; the notch detector tells such settings apart. The spec marks this as its own inference by arithmetic. -/
def Obligations.OnlyTheDifferenceMatters : Prop :=
  (∀ r : Rotor, r.pos.toNat ≤ 25 → r.ring.toNat ≤ 25 →
    let d := (26 + r.pos.toNat - r.ring.toNat) % 26
    ∀ x : Letter,
      r.fwd x.val = mod26 ((readWfwd r.sel (mod26 (x.val + d))).toNat + 26 - d) ∧
      r.bwd x.val = mod26 ((readWbwd r.sel (mod26 (x.val + d))).toNat + 26 - d)) ∧
  (∀ r r' : Rotor, r.pos.toNat ≤ 25 → r.ring.toNat ≤ 25 → r'.sel = r.sel →
    r'.pos.toNat = (r.pos.toNat + 1) % 26 → r'.ring.toNat = (r.ring.toNat + 1) % 26 →
    ∀ x : Letter, r'.fwd x.val = r.fwd x.val ∧ r'.bwd x.val = r.bwd x.val) ∧
  (∃ r r' : Rotor, r.Inv ∧ r'.Inv ∧ r.valid = true ∧ r'.valid = true ∧ r'.sel = r.sel ∧
    (∀ x : Letter, r'.fwd x.val = r.fwd x.val) ∧ r'.atNotch ≠ r.atNotch)

/-! ### The reflector family -/

/-- 30_encoding.md R82, 41_reflector.md R131: exact comparison with 0x42 and 0x43, the identity for every other byte,
never a fault. -/
def Obligations.LdrefSelectsTheReflector : Prop :=
  ∀ (s : State) (ch : BitVec 8),
    exec (.ldref ch) s =
      .next { s with
        engine := { s.engine with
          refsel := if ch.toNat = 0x42 then 1 else if ch.toNat = 0x43 then 2 else 0
          vref := true }
        responses := s.responses ++ [0] }

/-- 41_reflector.md R130, R132: XREF answers row 0 for B, row 1 for C and the letter itself for the identity. -/
def Obligations.XrefAnswersTheReflection : Prop :=
  ∀ (s : State) (x : BitVec 5) (hx : x.toNat < 26), s.engine.vref = true →
    exec (.xref x) s =
      .next { s with responses := s.responses ++
        [(if s.engine.refsel = 1 then readRefl 0 ⟨x.toNat, hx⟩
          else if s.engine.refsel = 2 then readRefl 1 ⟨x.toNat, hx⟩
          else x).setWidth 32] }

/-- 41_reflector.md R133: every reflector is an involution; B and C have no fixed point and the identity only fixed
points. -/
def Obligations.ReflectorIsAnInvolution : Prop :=
  ∀ (e : Engine) (x : Letter), e.refsel ≠ 3 →
    ∃ y : Letter, e.refl x = cellOf y ∧ e.refl y = cellOf x ∧
      (e.refsel = 1 ∨ e.refsel = 2 → y ≠ x) ∧ (e.refsel = 0 → y = x)

/-! ### The machine family -/

/-- 43_enigma.md R151, R152, R155: Step as one parallel assignment from the entry state; the middle rotor moves by two
when both predicates hold. -/
def Obligations.StepMovesTheRotors : Prop :=
  ∀ s : State, s.engine.Inv →
    s.engine.left.valid = true → s.engine.middle.valid = true → s.engine.right.valid = true →
    let l := s.engine.left
    let m := s.engine.middle
    let r := s.engine.right
    let mAt := if m.pos = m.notchA ∨ m.pos = m.notchB then 1 else 0
    let rAt := if r.pos = r.notchA ∨ r.pos = r.notchB then 1 else 0
    exec .step s =
      .next { s with
        engine := { s.engine with
          left := { l with pos := BitVec.ofNat 5 ((l.pos.toNat + mAt) % 26) }
          middle := { m with pos := BitVec.ofNat 5 ((m.pos.toNat + mAt + rAt) % 26) }
          right := { r with pos := BitVec.ofNat 5 ((r.pos.toNat + 1) % 26) } }
        responses := s.responses ++ [0] }

/-- 43_enigma.md R150, R153, R154: ENC leaves exactly the engine one STEP leaves, and answers the nine stages with the
positions after that step. -/
def Obligations.EncStepsThenSubstitutes : Prop :=
  ∀ (s : State) (ch : BitVec 8), 0x41 ≤ ch.toNat → ch.toNat ≤ 0x5A →
    s.engine.left.valid = true → s.engine.middle.valid = true → s.engine.right.valid = true →
    s.engine.vref = true → s.engine.vplg = true →
    ∃ t : State, exec .step s = .next t ∧
      let e := t.engine
      let a0 := e.plug.read (mod26 (ch.toNat - 0x41))
      let a3 := e.left.fwd (e.middle.fwd (e.right.fwd a0.toNat).val).val
      let a4 := e.refl a3
      let a7 := e.right.bwd (e.middle.bwd (e.left.bwd a4.toNat).val).val
      exec (.enc ch) s =
        .next { s with
          engine := t.engine
          responses := s.responses ++ [BitVec.ofNat 32 (0x41 + (e.plug.read a7).toNat)] }

/-- 43_enigma.md R156: the status word, field by field; nothing changes. -/
def Obligations.RdstShowsTheStatusWord : Prop :=
  ∀ s : State, ∃ w : Word,
    exec .rdst s = .next { s with responses := s.responses ++ [w] } ∧
    w.extractLsb' 0 5 = (if s.engine.right.valid then s.engine.right.pos else 0) ∧
    w.extractLsb' 5 5 = (if s.engine.middle.valid then s.engine.middle.pos else 0) ∧
    w.extractLsb' 10 5 = (if s.engine.left.valid then s.engine.left.pos else 0) ∧
    w.getLsbD 15 = (s.engine.right.valid && s.engine.atNotch .right) ∧
    w.getLsbD 16 = (s.engine.middle.valid && s.engine.atNotch .middle) ∧
    w.getLsbD 17 = (s.engine.left.valid && s.engine.atNotch .left) ∧
    w.getLsbD 18 = s.engine.right.valid ∧
    w.getLsbD 19 = s.engine.middle.valid ∧
    w.getLsbD 20 = s.engine.left.valid ∧
    w.getLsbD 21 = s.engine.vref ∧
    w.getLsbD 22 = s.engine.vplg ∧
    w.extractLsb' 23 2 = (if s.engine.vref then s.engine.refsel else 0) ∧
    w.extractLsb' 25 7 = 0

/-- 43_enigma.md R151: stepping reads neither SEL nor RING. -/
def Obligations.SteppingIgnoresRingsAndWirings : Prop :=
  ∀ (s t : State) (a b c : BitVec 3) (x y z : Cell), exec .step s = .next t →
    ∃ t' : State,
      exec .step { s with engine := { s.engine with
        left := { s.engine.left with sel := a, ring := x }
        middle := { s.engine.middle with sel := b, ring := y }
        right := { s.engine.right with sel := c, ring := z } } } = .next t' ∧
      t'.engine.left.pos = t.engine.left.pos ∧ t'.engine.middle.pos = t.engine.middle.pos ∧
      t'.engine.right.pos = t.engine.right.pos ∧ t'.responses = t.responses

/-- 43_enigma.md section 1: no Step from loaded catalog rotors leads into a double-trigger state, and the only commands
that lead from another state into one are LDROT and TURN. The spec marks this as its own inference from the stepping
rule and the notch table. -/
def Obligations.DoubleTriggerIsEnteredByLdrotOrTurn : Prop :=
  (∀ s t : State, s.engine.Inv → s.engine.rotorsValid = true → exec .step s = .next t →
    ¬ (t.engine.atNotch .middle = true ∧ t.engine.atNotch .right = true)) ∧
  (∀ (i : Instr) (s t : State), s.engine.Inv → s.engine.rotorsValid = true → exec i s = .next t →
    t.engine.atNotch .middle = true ∧ t.engine.atNotch .right = true →
    ¬ (s.engine.atNotch .middle = true ∧ s.engine.atNotch .right = true) →
    (∃ slot sel pos ring, i = .ldrot slot sel pos ring) ∨ (∃ slot, i = .turn slot))

/-- 43_enigma.md section 1: Step is total on loaded rotors but neither injective nor onto. The spec marks this as its own
inference by enumeration. -/
def Obligations.StepIsNeitherInjectiveNorOnto : Prop :=
  (∀ s : State, s.engine.rotorsValid = true →
    ∃ t, exec .step s = .next t ∧ t.responses = s.responses ++ [0]) ∧
  (∃ s s' t : State, s.engine.Inv ∧ s'.engine.Inv ∧ s.engine.rotorsValid = true ∧ s'.engine.rotorsValid = true ∧
    s.engine ≠ s'.engine ∧ exec .step s = .next t ∧ exec .step s' = .next t) ∧
  (∃ e : Engine, e.Inv ∧ e.rotorsValid = true ∧
    ∀ s t : State, s.engine.Inv → s.engine.rotorsValid = true → exec .step s = .next t → t.engine ≠ e)

/-- 43_enigma.md section 3: with an involutive plugboard and any reflector, Sub is an involution at fixed positions, and
enciphering the ciphertext from the same initial state gives the plaintext back, for every text; with reflector B or C
no letter is ever enciphered to itself, which the spec marks as its own inference from the reflector table. -/
def Obligations.EnciphermentIsReciprocal : Prop :=
  ∀ s : State, s.engine.Inv → s.engine.configured = true → s.engine.plug.Involutive →
    (∀ c : Letter, ∃ y : Letter, s.engine.sub c = cellOf y ∧ s.engine.sub y = cellOf c) ∧
    (∀ text : List Letter, ∃ (cipher : List Letter) (e : Engine),
      execList (encLetters text) s =
        .next { s with engine := e, responses := s.responses ++ cipher.map charWord } ∧
      execList (encLetters cipher) s =
        .next { s with engine := e, responses := s.responses ++ text.map charWord } ∧
      (s.engine.refsel = 1 ∨ s.engine.refsel = 2 → List.Forall₂ (fun a b => a ≠ b) text cipher))

/-- 43_enigma.md section 3: with the identity reflector ENC answers Plug(Plug(c)), which is c when PLUG is an involution,
and still steps the rotors. The spec marks this as its own inference from the cascade. -/
def Obligations.IdentityReflectorReturnsPlugOfPlug : Prop :=
  ∀ (s : State) (c : Letter), s.engine.Inv → s.engine.configured = true → s.engine.refsel = 0 →
    ∃ (t : State) (b : Letter), exec .step s = .next t ∧ s.engine.plug.read c = cellOf b ∧
      exec (.enc (charOf c)) s =
        .next { s with
          engine := t.engine
          responses := s.responses ++ [BitVec.ofNat 32 (0x41 + (s.engine.plug.read b).toNat)] } ∧
      (s.engine.plug.Involutive → s.engine.plug.read b = cellOf c)

/-! ### Pseudo-operations -/

/-- 43_enigma.md R159: CONFIGURE of a legal record, from any state, leaves the engine of the record, whatever was
there before, and every command of it answers 0. A record with a key written twice is built too: the model's choice
(log 13). -/
def Obligations.ConfigureBuildsTheRecordedMachine : Prop :=
  ∀ (s : State) (a b c p q r x y z : Nat) (id : Byte) (pairs : List (Letter × Letter)),
    a ≤ 7 → b ≤ 7 → c ≤ 7 → p ≤ 25 → q ≤ 25 → r ≤ 25 → x ≤ 25 → y ≤ 25 → z ≤ 25 →
    let bank := fun (sel pos ring : Nat) =>
      ({ sel := BitVec.ofNat 3 sel, pos := BitVec.ofNat 5 pos, ring := BitVec.ofNat 5 ring,
         notchA := readNotch (BitVec.ofNat 3 sel) 0, notchB := readNotch (BitVec.ofNat 3 sel) 1,
         valid := true } : Rotor)
    ∃ cmds : List Instr,
      configure { rotors := [a, b, c], rotorInit := [p, q, r], rotorSetting := [x, y, z], reflectorLetter := id,
                  plugboardSettings := pairs.map fun k => (charOf k.1, charOf k.2) } = some cmds ∧
      execList cmds s =
        .next { s with
          engine := {
            left := bank a p x
            middle := bank b q y
            right := bank c r z
            refsel := if id.toNat = 0x42 then 1 else if id.toNat = 0x43 then 2 else 0
            vref := true
            plug := pairs.foldl (fun m k => (m.write k.1 (cellOf k.2)).write k.2 (cellOf k.1)) Memory.identity
            vplg := true }
          responses := s.responses ++ List.replicate (pairs.length + 5) 0 }

/-- 43_enigma.md R159: the records the assembler refuses. That a key written twice is not refused is the model's choice
(log 13). -/
def Obligations.ConfigureRefusesIllegalRecords : Prop :=
  ∀ rec : ConfigRecord,
    (rec.rotors.length ≠ 3 ∨ rec.rotorInit.length ≠ 3 ∨ rec.rotorSetting.length ≠ 3 ∨
      (∃ a ∈ rec.rotors, 7 < a) ∨ (∃ p ∈ rec.rotorInit, 25 < p) ∨ (∃ x ∈ rec.rotorSetting, 25 < x) ∨
      (∃ k ∈ rec.plugboardSettings,
        k.1.toNat < 0x41 ∨ 0x5A < k.1.toNat ∨ k.2.toNat < 0x41 ∨ 0x5A < k.2.toNat)) ↔
    configure rec = none

/-- 43_enigma.md R160: ENCSTR is one ENC for each character in order, one response each; a character outside the
alphabet answers InvalidSymbol, and the others are enciphered as if it had been absent, whatever the engine holds. -/
def Obligations.EncstrSkipsTheFaultingCharacters : Prop :=
  encstr [] = [] ∧ (∀ text : List Byte, encstr text = text.map Instr.enc) ∧
  ∀ (s : State) (text : List Byte),
    ∃ (e : Engine) (answers : List Word),
      answers.length = text.length ∧
      execList (encstr text) s = .next { s with engine := e, responses := s.responses ++ answers } ∧
      execList (encstr (text.filter WellFormed.symbol)) s =
        .next { s with
          engine := e
          responses := s.responses ++ answers.filter fun r => decide (r ≠ 0x80000004) } ∧
      List.Forall₂ (fun ch r => WellFormed.symbol ch = false ↔ r = 0x80000004) text answers

/-- 30_encoding.md R98, R99: the assembler's text forms, one line of each kind, and refusals of operands wider than
their field. -/
def Obligations.AssemblerReadsTheLinesOfTheSyntax : Prop :=
  assembleLine "PBPAIR B, Q".toList = some [.pbpair 1 16] ∧
  assembleLine "PBPAIR 26, 0 ; assembled as written".toList = some [.pbpair 26 0] ∧
  assembleLine "LDROT R, 3, 12, 5".toList = some [.ldrot 2 3 12 5] ∧
  assembleLine "LDROT 3, 0, 0, 0".toList = some [.ldrot 3 0 0 0] ∧
  assembleLine "LDREF 'B'".toList = some [.ldref 0x42] ∧
  assembleLine "LDREF 0x00".toList = some [.ldref 0x00] ∧
  assembleLine "ENC 'a'".toList = some [.enc 0x61] ∧
  assembleLine "STEP".toList = some [.step] ∧
  assembleLine "; a comment".toList = some [] ∧
  assembleLine ("ENCSTR ".toList ++ [asmQuote] ++ "HI".toList ++ [asmQuote]) = some [.enc 0x48, .enc 0x49] ∧
  assembleLine "XPLG 32".toList = none ∧
  assembleLine "TURN 4".toList = none ∧
  assembleLine "LDROT 0, 8, 0, 0".toList = none
end

