-- ==== Sys2Proof/Laws/State.lean ====
section
/-! SUPPORT. One lemma for each field under each update of the state, true by rfl, so that no proof unfolds a record
update. -/

namespace Sys2Proof.Machine

variable (e : Engine) (s : State) (r : Rotor) (w : Word) (f : FaultKind)

@[simp] theorem Engine.rotor_left : e.rotor .left = e.left := rfl
@[simp] theorem Engine.rotor_middle : e.rotor .middle = e.middle := rfl
@[simp] theorem Engine.rotor_right : e.rotor .right = e.right := rfl

@[simp] theorem Engine.setRotor_left_left : (e.setRotor .left r).left = r := rfl
@[simp] theorem Engine.setRotor_left_middle : (e.setRotor .left r).middle = e.middle := rfl
@[simp] theorem Engine.setRotor_left_right : (e.setRotor .left r).right = e.right := rfl
@[simp] theorem Engine.setRotor_middle_left : (e.setRotor .middle r).left = e.left := rfl
@[simp] theorem Engine.setRotor_middle_middle : (e.setRotor .middle r).middle = r := rfl
@[simp] theorem Engine.setRotor_middle_right : (e.setRotor .middle r).right = e.right := rfl
@[simp] theorem Engine.setRotor_right_left : (e.setRotor .right r).left = e.left := rfl
@[simp] theorem Engine.setRotor_right_middle : (e.setRotor .right r).middle = e.middle := rfl
@[simp] theorem Engine.setRotor_right_right : (e.setRotor .right r).right = r := rfl

@[simp] theorem Engine.setRotor_refsel (k : Slot) : (e.setRotor k r).refsel = e.refsel := by cases k <;> rfl
@[simp] theorem Engine.setRotor_vref (k : Slot) : (e.setRotor k r).vref = e.vref := by cases k <;> rfl
@[simp] theorem Engine.setRotor_plug (k : Slot) : (e.setRotor k r).plug = e.plug := by cases k <;> rfl
@[simp] theorem Engine.setRotor_vplg (k : Slot) : (e.setRotor k r).vplg = e.vplg := by cases k <;> rfl

/-- Reading a bank after writing one: the banks do not alias (R20). -/
theorem Engine.rotor_setRotor (k k' : Slot) : (e.setRotor k r).rotor k' = if k' = k then r else e.rotor k' := by
  cases k <;> cases k' <;> rfl

@[simp] theorem Rotor.turned_sel : r.turned.sel = r.sel := rfl
@[simp] theorem Rotor.turned_pos : r.turned.pos = cellOf (mod26 (r.pos.toNat + 1)) := rfl
@[simp] theorem Rotor.turned_ring : r.turned.ring = r.ring := rfl
@[simp] theorem Rotor.turned_notchA : r.turned.notchA = r.notchA := rfl
@[simp] theorem Rotor.turned_notchB : r.turned.notchB = r.notchB := rfl
@[simp] theorem Rotor.turned_valid : r.turned.valid = r.valid := rfl

@[simp] theorem Rotor.mounted_sel (c : BitVec 3) (p g : Letter) : (Rotor.mounted c p g).sel = c := rfl
@[simp] theorem Rotor.mounted_pos (c : BitVec 3) (p g : Letter) : (Rotor.mounted c p g).pos = cellOf p := rfl
@[simp] theorem Rotor.mounted_ring (c : BitVec 3) (p g : Letter) : (Rotor.mounted c p g).ring = cellOf g := rfl
@[simp] theorem Rotor.mounted_notchA (c : BitVec 3) (p g : Letter) :
    (Rotor.mounted c p g).notchA = readNotch c 0 := rfl
@[simp] theorem Rotor.mounted_notchB (c : BitVec 3) (p g : Letter) :
    (Rotor.mounted c p g).notchB = readNotch c 1 := rfl
@[simp] theorem Rotor.mounted_valid (c : BitVec 3) (p g : Letter) : (Rotor.mounted c p g).valid = true := rfl

@[simp] theorem State.respond_engine : (s.respond w).engine = s.engine := rfl
@[simp] theorem State.respond_inputs : (s.respond w).inputs = s.inputs := rfl
@[simp] theorem State.respond_responses : (s.respond w).responses = s.responses ++ [w] := rfl

@[simp] theorem State.takeFault_engine : (s.takeFault f).engine = s.engine := rfl
@[simp] theorem State.takeFault_inputs : (s.takeFault f).inputs = s.inputs := rfl
@[simp] theorem State.takeFault_responses : (s.takeFault f).responses = s.responses ++ [f.word] := rfl

@[simp] theorem State.pulseReset_engine : s.pulseReset.engine = Engine.reset := rfl
@[simp] theorem State.pulseReset_inputs : s.pulseReset.inputs = s.inputs := rfl
@[simp] theorem State.pulseReset_responses : s.pulseReset.responses = s.responses := rfl

@[simp] theorem State.present_engine : (s.present w).engine = s.engine := rfl
@[simp] theorem State.present_inputs : (s.present w).inputs = .command w :: s.inputs := rfl
@[simp] theorem State.present_responses : (s.present w).responses = s.responses := rfl

end Sys2Proof.Machine
end

