-- ==== Sys2Proof/Laws/Ops.lean ====
section
/-! SUPPORT. For each shared operation, the lemma that says what it can do. -/

namespace Sys2Proof.Machine

@[simp] theorem mod26_val (v : Nat) : (mod26 v).val = v % 26 := rfl

@[simp] theorem cellOf_toNat (x : Letter) : (cellOf x).toNat = x.val := by
  simp only [cellOf, BitVec.toNat_ofNat]
  omega

theorem cellOf_le (x : Letter) : (cellOf x).toNat ≤ 25 := by
  rw [cellOf_toNat]; omega

@[simp] theorem cellOf_inj (x y : Letter) : cellOf x = cellOf y ↔ x = y := by
  constructor
  · intro h
    have := congrArg BitVec.toNat h
    simp only [cellOf_toNat] at this
    exact Fin.ext this
  · rintro rfl; rfl

/-- A cell in 0..25 is the cell of a letter code. -/
theorem exists_cellOf (c : Cell) (h : c.toNat ≤ 25) : ∃ x : Letter, c = cellOf x ∧ x.val = c.toNat := by
  refine ⟨⟨c.toNat, by omega⟩, ?_, rfl⟩
  apply BitVec.eq_of_toNat_eq
  rw [cellOf_toNat]

/-- A letter-code field is accepted exactly when it is in 0..25, and as it stands (R92). -/
theorem letterOperand_eq_some (x : BitVec 5) (l : Letter) : letterOperand x = some l ↔ x = cellOf l := by
  unfold letterOperand
  constructor
  · intro h
    split at h
    · obtain rfl := Option.some.inj h
      apply BitVec.eq_of_toNat_eq
      rw [cellOf_toNat]
    · cases h
  · rintro rfl
    simp

theorem letterOperand_eq_none (x : BitVec 5) : letterOperand x = none ↔ 25 < x.toNat := by
  unfold letterOperand
  split
  · simp; omega
  · simp; omega

@[simp] theorem letterOperand_cellOf (l : Letter) : letterOperand (cellOf l) = some l :=
  (letterOperand_eq_some _ l).2 rfl

/-- A slot field is refused exactly when it is 3 (R83). -/
theorem slotOperand_eq_none (b : BitVec 2) : slotOperand b = none ↔ b = 3 := by
  revert b; decide

theorem slotOperand_eq_some (b : BitVec 2) (k : Slot) :
    slotOperand b = some k ↔ (b = 0 ∧ k = .left) ∨ (b = 1 ∧ k = .middle) ∨ (b = 2 ∧ k = .right) := by
  revert b; cases k <;> decide

/-- A character is accepted exactly when it is in 0x41..0x5A, with its code (R81). -/
theorem symbolOperand_eq_some (ch : Byte) (l : Letter) :
    symbolOperand ch = some l ↔ ch.toNat = 0x41 + l.val := by
  unfold symbolOperand
  constructor
  · intro h
    split at h
    · next hc => obtain rfl := Option.some.inj h; simp only; omega
    · cases h
  · intro h
    have hl := l.isLt
    rw [dif_pos (by omega)]
    congr 1
    exact Fin.ext (by simp only; omega)

theorem symbolOperand_eq_none (ch : Byte) : symbolOperand ch = none ↔ ch.toNat < 0x41 ∨ 0x5A < ch.toNat := by
  unfold symbolOperand
  split
  · simp; omega
  · simp; omega

/-- LDREF never selects the value 3 of REFSEL (R26). -/
theorem refselOf_ne_three (id : Byte) : refselOf id ≠ 3 := by
  unfold refselOf
  split
  · decide
  · split <;> decide

/-- What the end of a command can be (R96, R171): the command's engine and result, or a fault and nothing else. -/
theorem State.answer_next (s t : State) (r : Result) (h : s.answer r = .next t) :
    (∃ e v, r = .ok (e, v) ∧ t = { s with engine := e, responses := s.responses ++ [normalWord v] }) ∨
    (∃ f, r = .error f ∧ t = { s with responses := s.responses ++ [f.word] }) := by
  cases r with
  | error f => exact .inr ⟨f, rfl, (Host.Outcome.next.inj h).symm⟩
  | ok p => exact .inl ⟨p.1, p.2, rfl, (Host.Outcome.next.inj h).symm⟩

/-- A command always ends (R202). -/
theorem State.answer_completes (s : State) (r : Result) : ∃ t, s.answer r = .next t := by
  cases r with
  | error f => exact ⟨_, rfl⟩
  | ok p => exact ⟨_, rfl⟩

/-- Turnover changes the position of its own slot and nothing else (R114). -/
theorem Engine.rotor_turnover (e : Engine) (k k' : Slot) :
    (e.turnover k).rotor k' = if k' = k then (e.rotor k).turned else e.rotor k' :=
  Engine.rotor_setRotor _ _ _ _

@[simp] theorem Engine.turnover_refsel (e : Engine) (k : Slot) : (e.turnover k).refsel = e.refsel := by
  simp [Engine.turnover]
@[simp] theorem Engine.turnover_vref (e : Engine) (k : Slot) : (e.turnover k).vref = e.vref := by
  simp [Engine.turnover]
@[simp] theorem Engine.turnover_plug (e : Engine) (k : Slot) : (e.turnover k).plug = e.plug := by
  simp [Engine.turnover]
@[simp] theorem Engine.turnover_vplg (e : Engine) (k : Slot) : (e.turnover k).vplg = e.vplg := by
  simp [Engine.turnover]

/-- Turned `n` times. -/
def Rotor.turnedTimes (r : Rotor) : Nat → Rotor
  | 0 => r
  | n + 1 => (r.turnedTimes n).turned

/-- Everything Step does: each bank is turned a number of times that depends on the two notch predicates of the entry
state, and nothing else changes (R151, R152). -/
theorem Engine.stepped_eq (e : Engine) :
    e.stepped =
      { e with
        left := e.left.turnedTimes (if e.middle.atNotch then 1 else 0)
        middle := e.middle.turnedTimes ((if e.middle.atNotch then 1 else 0) + (if e.right.atNotch then 1 else 0))
        right := e.right.turned } := by
  unfold Engine.stepped Engine.doubleStep Engine.carry
  cases hm : e.middle.atNotch <;> cases hr : e.right.atNotch <;>
    simp [Engine.atNotch, Engine.turnover, Engine.setRotor, Rotor.turnedTimes, hm, hr]

/-- The word that rejects and the fault that follows (R172). -/
theorem State.rejectWord_eq (s : State) (why : Reject) :
    s.rejectWord why = .next { s with responses := s.responses ++ [FaultKind.illegalCommand.word] } := rfl

end Sys2Proof.Machine
end

