-- ==== Sys2Proof/Laws/Memory.lean ====
section
/-! SUPPORT. The laws of PLUG: read after write, and that every operation on it keeps every cell a letter code
(Memory.wf). PLUG has one form for each content, so equal memories are equal data. -/

namespace Sys2Proof.Machine

/-- Read after write: the cell written, and no other (R61). -/
theorem Memory.read_write (m : Memory) (i j : Letter) (v : Cell) :
    (m.write i v).read j = if j = i then v else m.read j := by
  simp only [Memory.read, Memory.write, Fin.getElem_fin, Vector.getElem_set, Fin.ext_iff]
  simp only [eq_comm]

/-- After PBCLR every cell holds its own index (R141). -/
@[simp] theorem Memory.read_identity (x : Letter) : Memory.identity.read x = cellOf x := by
  revert x; decide

/-- Two PLUG tables with the same cells are equal. -/
theorem Memory.ext_read (m m' : Memory) (h : ∀ x, m.read x = m'.read x) : m = m' := by
  apply Vector.ext
  intro i hi
  exact h ⟨i, hi⟩

/-- Memory.wf, cell by cell. -/
theorem Memory.wf_iff (m : Memory) : m.wf = true ↔ ∀ x : Letter, (m.read x).toNat ≤ 25 := by
  constructor
  · intro h x
    simp only [Memory.wf, List.all_eq_true, decide_eq_true_eq] at h
    exact h _ (by simp [Memory.read])
  · intro h
    simp only [Memory.wf, List.all_eq_true, decide_eq_true_eq]
    intro c hc
    obtain ⟨i, hi, rfl⟩ := List.getElem_of_mem hc
    have hi' : i < 26 := by simpa using hi
    simpa [Memory.read] using h ⟨i, hi'⟩

/-- The two writes of PBPAIR, cell by cell (R142). -/
theorem Memory.read_pair (m : Memory) (k v x : Letter) :
    (m.pair k v).read x = if x = v then cellOf k else if x = k then cellOf v else m.read x := by
  simp only [Memory.pair, Memory.read_write]

theorem Memory.wf_reset : Memory.reset.wf = true := by decide

theorem Memory.wf_identity : Memory.identity.wf = true := by decide

/-- A write of a letter code keeps every cell a letter code. -/
theorem Memory.wf_write (m : Memory) (i : Letter) (v : Cell) (h : m.wf = true) (hv : v.toNat ≤ 25) :
    (m.write i v).wf = true := by
  rw [Memory.wf_iff] at h ⊢
  intro x
  rw [Memory.read_write]
  split
  · exact hv
  · exact h x

theorem Memory.wf_pair (m : Memory) (k v : Letter) (h : m.wf = true) : (m.pair k v).wf = true :=
  Memory.wf_write _ _ _ (Memory.wf_write _ _ _ h (cellOf_le v)) (cellOf_le k)

end Sys2Proof.Machine
end

