-- ==== Sys2Proof/Laws/Commands.lean ====
section
/-! SUPPORT. What each command can do, one inversion lemma for each, and what one step can do. -/

namespace Sys2Proof.Machine

/-- The result of a command on an engine, by constructor. -/
def result (i : Instr) (e : Engine) : Result :=
  match i with
  | .pbclr => pbclrResult e
  | .pbpair k v => pbpairResult k v e
  | .ldrot slot sel pos ring => ldrotResult slot sel pos ring e
  | .ldref ch => ldrefResult ch e
  | .step => stepResult e
  | .enc ch => encResult ch e
  | .rdst => rdstResult e
  | .turn slot => turnResult slot e
  | .xfwd slot x => probeResult Rotor.fwd slot x e
  | .xbwd slot x => probeResult Rotor.bwd slot x e
  | .xref x => xrefResult x e
  | .xplg x => xplgResult x e

/-- Every command is its result, answered. -/
theorem exec_eq_answer (i : Instr) (s : State) : exec i s = s.answer (result i s.engine) := by
  cases i <;> rfl

/-- What executing a command can do: end with its result, or fault and change nothing but the responses. -/
theorem exec_next (i : Instr) (s t : State) (h : exec i s = .next t) :
    (∃ e v, result i s.engine = .ok (e, v) ∧
      t = { s with engine := e, responses := s.responses ++ [normalWord v] }) ∨
    (∃ f, result i s.engine = .error f ∧ t = { s with responses := s.responses ++ [f.word] }) :=
  State.answer_next s t _ (by rw [← exec_eq_answer]; exact h)

theorem exec_of_ok (i : Instr) (s : State) (e : Engine) (v : Payload) (h : result i s.engine = .ok (e, v)) :
    exec i s = .next { s with engine := e, responses := s.responses ++ [normalWord v] } := by
  rw [exec_eq_answer, h]; rfl

theorem exec_of_error (i : Instr) (s : State) (f : FaultKind) (h : result i s.engine = .error f) :
    exec i s = .next { s with responses := s.responses ++ [f.word] } := by
  rw [exec_eq_answer, h]; rfl

/-- LDROT ends normally exactly with its bank mounted (R111). -/
theorem ldrotResult_ok {slot : BitVec 2} {sel : BitVec 3} {pos ring : BitVec 5} {e e' : Engine} {v : Payload}
    (h : ldrotResult slot sel pos ring e = .ok (e', v)) :
    ∃ k p r, slotOperand slot = some k ∧ pos = cellOf p ∧ ring = cellOf r ∧
      e' = e.setRotor k (Rotor.mounted sel p r) ∧ v = 0 := by
  unfold ldrotResult at h
  split at h
  · next k p r hk hp hr =>
    cases h
    exact ⟨k, p, r, hk, (letterOperand_eq_some _ _).1 hp, (letterOperand_eq_some _ _).1 hr, rfl, rfl⟩
  · cases h

/-- TURN ends normally exactly with its slot turned (R115). -/
theorem turnResult_ok {slot : BitVec 2} {e e' : Engine} {v : Payload} (h : turnResult slot e = .ok (e', v)) :
    ∃ k, slotOperand slot = some k ∧ (e.rotor k).valid = true ∧ e' = e.turnover k ∧ v = 0 := by
  unfold turnResult at h
  split at h
  · cases h
  · next k hk =>
    split at h
    · next hv => cases h; exact ⟨k, hk, hv, rfl, rfl⟩
    · cases h

/-- XFWD and XBWD end normally with the engine untouched (R116, R117). -/
theorem probeResult_ok {f : Rotor → Nat → Letter} {slot : BitVec 2} {x : BitVec 5} {e e' : Engine} {v : Payload}
    (h : probeResult f slot x e = .ok (e', v)) :
    ∃ k c, slotOperand slot = some k ∧ x = cellOf c ∧ (e.rotor k).valid = true ∧ e' = e ∧
      v = cellResult (cellOf (f (e.rotor k) c.val)) := by
  unfold probeResult at h
  split at h
  · next k c hk hc =>
    split at h
    · next hv => cases h; exact ⟨k, c, hk, (letterOperand_eq_some _ _).1 hc, hv, rfl, rfl⟩
    · cases h
  · cases h

/-- LDREF always ends normally (R131). -/
theorem ldrefResult_ok {id : Byte} {e e' : Engine} {v : Payload} (h : ldrefResult id e = .ok (e', v)) :
    e' = { e with refsel := refselOf id, vref := true } ∧ v = 0 := by
  cases h; exact ⟨rfl, rfl⟩

/-- XREF ends normally with the engine untouched (R132). -/
theorem xrefResult_ok {x : BitVec 5} {e e' : Engine} {v : Payload} (h : xrefResult x e = .ok (e', v)) :
    ∃ c, x = cellOf c ∧ e.vref = true ∧ e' = e ∧ v = cellResult (e.refl c) := by
  unfold xrefResult at h
  split at h
  · cases h
  · next c hc =>
    split at h
    · next hv => cases h; exact ⟨c, (letterOperand_eq_some _ _).1 hc, hv, rfl, rfl⟩
    · cases h

/-- PBCLR always ends normally (R141). -/
theorem pbclrResult_ok {e e' : Engine} {v : Payload} (h : pbclrResult e = .ok (e', v)) :
    e' = { e with plug := Memory.identity, vplg := true } ∧ v = 0 := by
  cases h; exact ⟨rfl, rfl⟩

/-- PBPAIR ends normally exactly with its two writes (R142). -/
theorem pbpairResult_ok {k v : BitVec 5} {e e' : Engine} {w : Payload} (h : pbpairResult k v e = .ok (e', w)) :
    ∃ a b, k = cellOf a ∧ v = cellOf b ∧ e.vplg = true ∧ e' = { e with plug := e.plug.pair a b } ∧ w = 0 := by
  unfold pbpairResult at h
  split at h
  · next a b ha hb =>
    split at h
    · next hv =>
      cases h
      exact ⟨a, b, (letterOperand_eq_some _ _).1 ha, (letterOperand_eq_some _ _).1 hb, hv, rfl, rfl⟩
    · cases h
  · cases h

/-- XPLG ends normally with the engine untouched (R143). -/
theorem xplgResult_ok {x : BitVec 5} {e e' : Engine} {v : Payload} (h : xplgResult x e = .ok (e', v)) :
    ∃ c, x = cellOf c ∧ e.vplg = true ∧ e' = e ∧ v = cellResult (e.plugged c) := by
  unfold xplgResult at h
  split at h
  · cases h
  · next c hc =>
    split at h
    · next hv => cases h; exact ⟨c, (letterOperand_eq_some _ _).1 hc, hv, rfl, rfl⟩
    · cases h

/-- STEP ends normally exactly with Step (R155). -/
theorem stepResult_ok {e e' : Engine} {v : Payload} (h : stepResult e = .ok (e', v)) :
    e.rotorsValid = true ∧ e' = e.stepped ∧ v = 0 := by
  unfold stepResult at h
  split at h
  · next hv => cases h; exact ⟨hv, rfl, rfl⟩
  · cases h

/-- ENC ends normally exactly with Step, and answers the substitution after it (R154). -/
theorem encResult_ok {ch : Byte} {e e' : Engine} {v : Payload} (h : encResult ch e = .ok (e', v)) :
    ∃ c, symbolOperand ch = some c ∧ e.configured = true ∧ e' = e.stepped ∧ v = symbolResult (e.stepped.sub c) := by
  unfold encResult at h
  split at h
  · cases h
  · next c hc =>
    split at h
    · next hv => cases h; exact ⟨c, hc, hv, rfl, rfl⟩
    · cases h

/-- RDST always ends normally with the engine untouched (R156). -/
theorem rdstResult_ok {e e' : Engine} {v : Payload} (h : rdstResult e = .ok (e', v)) : e' = e ∧ v = e.status := by
  cases h; exact ⟨rfl, rfl⟩

/-- What one step can do: nothing, a pulse of rst, a rejected word, or a command. -/
theorem step_cases (s t : State) (h : step s = .next t) :
    (s.inputs = [] ∧ t = s) ∨
    (∃ rest, s.inputs = .reset :: rest ∧ t = { s with inputs := rest, engine := Engine.reset }) ∨
    (∃ w rest why, s.inputs = .command w :: rest ∧ decode w = .error why ∧
      t = { s with inputs := rest, responses := s.responses ++ [FaultKind.illegalCommand.word] }) ∨
    (∃ w rest i, s.inputs = .command w :: rest ∧ decode w = .ok i ∧ exec i { s with inputs := rest } = .next t) := by
  unfold step at h
  split at h
  · next hi => exact .inl ⟨hi, (Host.Outcome.next.inj h).symm⟩
  · next rest hi => exact .inr (.inl ⟨rest, hi, (Host.Outcome.next.inj h).symm⟩)
  · next w rest hi =>
    unfold issue at h
    split at h
    · next i hd => exact .inr (.inr (.inr ⟨w, rest, i, hi, hd, h⟩))
    · next why hd => exact .inr (.inr (.inl ⟨w, rest, why, hi, hd, (Host.Outcome.next.inj h).symm⟩))

/-- A step of a presented command word. -/
theorem step_command (s : State) (w : Word) (rest : List Input) (h : s.inputs = .command w :: rest) :
    step s = issue w { s with inputs := rest } := by
  unfold step; rw [h]

/-- A run of one step more, where the first step answers a next state. -/
theorem core_run_succ (M : Host.Core) (k : Nat) (s s' : M.State) (h : M.step s = .next s') :
    M.run (k + 1) s = M.run k s' := by
  rw [Host.Core.run, h]

end Sys2Proof.Machine
end

