-- ==== Sys2Proof/Laws/PerInstr.lean ====
section
/-! SUPPORT. Statements made for every constructor of Instr: the opcode of its word, and the row it matches (R93). -/

namespace Sys2Proof.Laws.EncodeOpcode

/-- The opcode field of a command's word selects the row of its mnemonic, and no reserved bit is set (R84, R93). -/
def Statement (i : Instr) : Prop :=
  opcodeOf (field (encode i) 28 4) = some i.opcode ∧ encode i &&& i.opcode.mask = i.opcode.pattern

/-- The statement from the opcode's value, the bits of the opcode field and the bits of the masked word. -/
theorem of_bits {i : Instr} (op : BitVec 4) (hrow : opcodeOf op = some i.opcode)
    (hop : ∀ n < 4, (field (encode i) 28 4).getLsbD n = op.getLsbD n)
    (hbits : ∀ n < 32, (encode i &&& i.opcode.mask).getLsbD n = i.opcode.pattern.getLsbD n) : Statement i :=
  ⟨by rw [BitVec.eq_of_getLsbD_eq hop, hrow], BitVec.eq_of_getLsbD_eq hbits⟩

theorem pbclr : Statement .pbclr := ⟨by decide, by decide⟩

theorem step : Statement .step := ⟨by decide, by decide⟩

theorem rdst : Statement .rdst := ⟨by decide, by decide⟩

theorem pbpair (k v : BitVec 5) : Statement (.pbpair k v) := by
  refine of_bits 2 rfl ?_ ?_ <;> intro n hn <;>
    simp only [field, encode, placed, Instr.opcode, Opcode.mask, Opcode.pattern] <;>
    interval_cases n <;> simp

theorem ldrot (slot : BitVec 2) (sel : BitVec 3) (pos ring : BitVec 5) : Statement (.ldrot slot sel pos ring) := by
  refine of_bits 3 rfl ?_ ?_ <;> intro n hn <;>
    simp only [field, encode, placed, Instr.opcode, Opcode.mask, Opcode.pattern] <;>
    interval_cases n <;> simp

theorem ldref (ch : BitVec 8) : Statement (.ldref ch) := by
  refine of_bits 4 rfl ?_ ?_ <;> intro n hn <;>
    simp only [field, encode, placed, Instr.opcode, Opcode.mask, Opcode.pattern] <;>
    interval_cases n <;> simp

theorem enc (ch : BitVec 8) : Statement (.enc ch) := by
  refine of_bits 6 rfl ?_ ?_ <;> intro n hn <;>
    simp only [field, encode, placed, Instr.opcode, Opcode.mask, Opcode.pattern] <;>
    interval_cases n <;> simp

theorem turn (slot : BitVec 2) : Statement (.turn slot) := by
  refine of_bits 8 rfl ?_ ?_ <;> intro n hn <;>
    simp only [field, encode, placed, Instr.opcode, Opcode.mask, Opcode.pattern] <;>
    interval_cases n <;> simp

theorem xfwd (slot : BitVec 2) (x : BitVec 5) : Statement (.xfwd slot x) := by
  refine of_bits 9 rfl ?_ ?_ <;> intro n hn <;>
    simp only [field, encode, placed, Instr.opcode, Opcode.mask, Opcode.pattern] <;>
    interval_cases n <;> simp

theorem xbwd (slot : BitVec 2) (x : BitVec 5) : Statement (.xbwd slot x) := by
  refine of_bits 10 rfl ?_ ?_ <;> intro n hn <;>
    simp only [field, encode, placed, Instr.opcode, Opcode.mask, Opcode.pattern] <;>
    interval_cases n <;> simp

theorem xref (x : BitVec 5) : Statement (.xref x) := by
  refine of_bits 11 rfl ?_ ?_ <;> intro n hn <;>
    simp only [field, encode, placed, Instr.opcode, Opcode.mask, Opcode.pattern] <;>
    interval_cases n <;> simp

theorem xplg (x : BitVec 5) : Statement (.xplg x) := by
  refine of_bits 12 rfl ?_ ?_ <;> intro n hn <;>
    simp only [field, encode, placed, Instr.opcode, Opcode.mask, Opcode.pattern] <;>
    interval_cases n <;> simp

/-- The statement for every command. -/
theorem all (i : Instr) : Statement i := by
  cases i with
  | pbclr => exact pbclr
  | pbpair k v => exact pbpair k v
  | ldrot slot sel pos ring => exact ldrot slot sel pos ring
  | ldref ch => exact ldref ch
  | step => exact step
  | enc ch => exact enc ch
  | rdst => exact rdst
  | turn slot => exact turn slot
  | xfwd slot x => exact xfwd slot x
  | xbwd slot x => exact xbwd slot x
  | xref x => exact xref x
  | xplg x => exact xplg x

end Sys2Proof.Laws.EncodeOpcode
end

