-- ==== Sys2Proof/Tests/Slice0.lean ====
section
/-! SUPPORT. Tests: decoding of words written out from 30_encoding.md, refusals of WellFormed, single steps with the
results of 95_test_vectors.md or of the examples of the rules, and a witness for every statement with hypotheses. -/

namespace Sys2Proof.Tests

open Sys2Proof.Machine

/-! ### Helpers -/

/-- An engine with rotors of the given (sel, pos, ring), left to right, a reflector and a plugboard, all loaded. -/
def engineOf (l m r : BitVec 3 × Letter × Letter) (refsel : BitVec 2) (plug : Memory) : Engine :=
  { left := Rotor.mounted l.1 l.2.1 l.2.2, middle := Rotor.mounted m.1 m.2.1 m.2.2,
    right := Rotor.mounted r.1 r.2.1 r.2.2, refsel := refsel, vref := true, plug := plug, vplg := true }

/-- A state with the engine and nothing at the ports. -/
def stateOf (e : Engine) : State := { engine := e, inputs := [], responses := [] }

/-- Rotors 0, 1, 2 at the positions, rings 0, reflector B, no pairs (95_test_vectors.md V-E1, V-S). -/
def demo (l m r : Letter) : State := stateOf (engineOf (0, l, 0) (1, m, 0) (2, r, 0) 1 Memory.identity)

/-- The state of the source's vector S4 at the positions. -/
def demoS4 (l m r : Letter) : State :=
  stateOf (engineOf (7, l, 1) (5, m, 1) (3, r, 5) 1
    #v[0, 16, 17, 8, 9, 5, 7, 6, 3, 4, 22, 11, 19, 13, 18, 23, 1, 2, 14, 12, 25, 21, 10, 15, 24, 20])

/-- The last response word of a next state. -/
def answered : Outcome → Option Word
  | .next t => t.responses.getLast?
  | .fault _ => none
  | .refused _ => none

/-- The positions (left, middle, right) of a next state. -/
def positions : Outcome → Option (Nat × Nat × Nat)
  | .next t => some (t.engine.left.pos.toNat, t.engine.middle.pos.toNat, t.engine.right.pos.toNat)
  | .fault _ => none
  | .refused _ => none

/-- The state in which the host presents the word after reset. -/
def resetThen (w : Word) : State := State.reset.present w

/-! ### Decoding: one word of each row, bit by bit from the encodings of R84 and R93 -/

theorem test_decode_pbclr : decode 0b0001_0000_0000_0000_0000_0000_0000_0000 = .ok .pbclr := by decide
theorem test_decode_pbpair : decode 0b0010_0000_0000_0000_0001_1001_0000_0110 = .ok (.pbpair 25 6) := by decide
theorem test_decode_ldrot : decode 0b0011_0010_0000_0011_0000_1100_0000_0101 = .ok (.ldrot 2 3 12 5) := by decide
theorem test_decode_ldref : decode 0b0100_0000_0000_0000_0000_0000_0100_0011 = .ok (.ldref 0x43) := by decide
theorem test_decode_step : decode 0b0101_0000_0000_0000_0000_0000_0000_0000 = .ok .step := by decide
theorem test_decode_enc : decode 0b0110_0000_0000_0000_0000_0000_0101_1010 = .ok (.enc 0x5A) := by decide
theorem test_decode_rdst : decode 0b0111_0000_0000_0000_0000_0000_0000_0000 = .ok .rdst := by decide
theorem test_decode_turn : decode 0b1000_0001_0000_0000_0000_0000_0000_0000 = .ok (.turn 1) := by decide
theorem test_decode_xfwd : decode 0b1001_0010_0000_0000_0000_0000_0001_0011 = .ok (.xfwd 2 19) := by decide
theorem test_decode_xbwd : decode 0b1010_0001_0000_0000_0000_0000_0000_1001 = .ok (.xbwd 1 9) := by decide
theorem test_decode_xref : decode 0b1011_0000_0000_0000_0000_0000_0001_1000 = .ok (.xref 24) := by decide
theorem test_decode_xplg : decode 0b1100_0000_0000_0000_0000_0000_0001_0000 = .ok (.xplg 16) := by decide

/-- V-X1 to V-X3: reserved opcodes. -/
theorem test_decode_reserved_opcodes :
    decode 0x00000000 = .error .reservedOpcode ∧ decode 0xFFFFFFFF = .error .reservedOpcode ∧
    decode 0xD0000000 = .error .reservedOpcode ∧ decode 0xE0000000 = .error .reservedOpcode := by decide

/-- V-X4 to V-X9: a reserved bit of each of six rows. -/
theorem test_decode_reserved_bits :
    decode 0x10000001 = .error .reservedBit ∧ decode 0x60000141 = .error .reservedBit ∧
    decode 0x30080000 = .error .reservedBit ∧ decode 0x40000142 = .error .reservedBit ∧
    decode 0x78000000 = .error .reservedBit ∧ decode 0x60010061 = .error .reservedBit := by decide

/-- R6, R7: the parameters are those of the types and banks that use them. -/
theorem test_parameters :
    Letter = Fin Config.nsym ∧ Cell = BitVec Config.symw ∧ Word = BitVec Config.cmdw ∧ Word = BitVec Config.rspw ∧
    Config.nrotor = [Slot.left, .middle, .right].length ∧ Config.ncat = wfwdBank.toList.length ∧
    Config.nnotch = (notchBank[0]).toList.length ∧ Config.sentinel = (readNotch 0 1).toNat :=
  ⟨rfl, rfl, rfl, rfl, rfl, rfl, rfl, rfl⟩

/-- The encoder, on the words of programs P1 and P4. -/
theorem test_encode :
    encode (.ldrot 0 7 18 1) = 0x30071201 ∧ encode (.pbpair 20 25) = 0x20001419 ∧
    encode (.xfwd 1 0) = 0x91000000 ∧ encode (.turn 2) = 0x82000000 := by decide

/-! ### WellFormed: an ill-formed command for each check -/

theorem test_wellFormed_slot : (Instr.turn 3).wellFormed = false := by decide
theorem test_wellFormed_slot_ldrot : (Instr.ldrot 3 0 0 0).wellFormed = false := by decide
theorem test_wellFormed_pos : (Instr.ldrot 0 0 26 0).wellFormed = false := by decide
theorem test_wellFormed_ring : (Instr.ldrot 0 0 0 31).wellFormed = false := by decide
theorem test_wellFormed_k : (Instr.pbpair 26 0).wellFormed = false := by decide
theorem test_wellFormed_v : (Instr.pbpair 0 26).wellFormed = false := by decide
theorem test_wellFormed_probe :
    (Instr.xfwd 3 0).wellFormed = false ∧ (Instr.xfwd 0 26).wellFormed = false ∧
    (Instr.xbwd 3 0).wellFormed = false ∧ (Instr.xbwd 0 26).wellFormed = false := by decide
theorem test_wellFormed_letter : (Instr.xref 26).wellFormed = false ∧ (Instr.xplg 26).wellFormed = false := by decide
theorem test_wellFormed_symbol :
    (Instr.enc 0x40).wellFormed = false ∧ (Instr.enc 0x5B).wellFormed = false ∧
    (Instr.enc 0x61).wellFormed = false := by decide
theorem test_wellFormed_accepts :
    (Instr.ldrot 2 7 25 25).wellFormed = true ∧ (Instr.enc 0x41).wellFormed = true ∧
    (Instr.enc 0x5A).wellFormed = true ∧ (Instr.ldref 0xFF).wellFormed = true := by decide

/-! ### Single commands -/

/-- V-P1 and V-P8: PBCLR on a live plugboard is the identity again. -/
theorem test_pbclr :
    ∃ t, exec .pbclr (demoS4 0 0 0) = .next t ∧ t.engine.plug = Memory.identity ∧ t.responses = [0] :=
  ⟨_, rfl, rfl, rfl⟩

/-- R142: after PBCLR, PBPAIR B, Q. -/
theorem test_pbpair :
    ∃ t, exec (.pbpair 1 16) (demo 0 0 0) = .next t ∧ t.engine.plug.read 1 = 16 ∧ t.engine.plug.read 16 = 1 ∧
      t.engine.plug.read 2 = 2 ∧ t.responses = [0] :=
  ⟨_, rfl, by decide, by decide, by decide, rfl⟩

/-- V-P5: a reused letter leaves its former partner pointing at it. -/
theorem test_pbpair_reuse :
    (((Memory.identity.pair 0 1).pair 0 2).read 0, ((Memory.identity.pair 0 1).pair 0 2).read 1,
      ((Memory.identity.pair 0 1).pair 0 2).read 2) = (2, 0, 0) := by decide

/-- V-P2: XPLG 1 after PBPAIR B, Q (which S4's table holds too). -/
theorem test_xplg : answered (exec (.xplg 1) (demoS4 0 0 0)) = some 0x10 := by decide

/-- V-ROT20. -/
theorem test_ldrot :
    ∃ t, exec (.ldrot 2 3 12 5) State.reset = .next t ∧ t.responses = [0] ∧
      t.engine.right = { sel := 3, pos := 12, ring := 5, notchA := 9, notchB := 27, valid := true } :=
  ⟨_, rfl, rfl, by decide⟩

/-- V-ROT21: a rotor with two notches. -/
theorem test_ldrot_two_notches :
    ∃ t, exec (.ldrot 1 5 12 0) State.reset = .next t ∧
      t.engine.middle.notchA = 25 ∧ t.engine.middle.notchB = 12 :=
  ⟨_, rfl, by decide, by decide⟩

/-- V-ROT25: 25 wraps to 0. -/
theorem test_turn_wraps : positions (exec (.turn 0) (demo 25 3 4)) = some (0, 3, 4) := by decide

/-- V-ROT4 and V-ROT16: the largest first argument of mod26, and its inverse. -/
theorem test_xfwd : answered (exec (.xfwd 0 25) (demo 25 0 0)) = some 3 := by decide
theorem test_xbwd : answered (exec (.xbwd 0 3) (demo 25 0 0)) = some 0x19 := by decide

/-- V-ROT9 and V-ROT18: stages S1 and S5 of the first character of S4. -/
theorem test_xfwd_ring : answered (exec (.xfwd 2 6) (demoS4 18 10 13)) = some 0xF := by decide
theorem test_xbwd_ring : answered (exec (.xbwd 0 11) (demoS4 18 10 13)) = some 0x11 := by decide

/-- V-F1, V-F4 and V-F7: B, C, and a lowercase letter. -/
theorem test_ldref :
    (refselOf 0x42, refselOf 0x43, refselOf 0x62, refselOf 0x00) = (1, 2, 0, 0) := by decide
theorem test_xref_b : answered (exec (.xref 0) (demo 0 0 0)) = some 0x18 := by decide
theorem test_xref_c :
    answered (exec (.xref 0) (stateOf (engineOf (0, 0, 0) (1, 0, 0) (2, 0, 0) 2 Memory.identity))) = some 5 := by
  decide

/-- V-S4 and V-S11: the double trigger moves the middle rotor by two. -/
theorem test_step_double_trigger : positions (exec .step (demo 0 4 21)) = some (1, 6, 22) := by decide
theorem test_step_wraps : positions (exec .step (demoS4 18 25 9)) = some (19, 1, 10) := by decide

/-- V-E1 and S4: the first characters. -/
theorem test_enc : answered (exec (.enc 0x41) (demo 0 0 0)) = some 0x42 := by decide
theorem test_enc_s4 : answered (exec (.enc 0x48) (demoS4 18 10 12)) = some 0x4F := by decide

/-- R156: the two worked status words. -/
theorem test_rdst : answered (exec .rdst (demo 0 4 21)) = some 0x00FD8095 := by decide
theorem test_rdst_s4 : answered (exec .rdst (demoS4 19 14 8)) = some 0x00FC4DC8 := by decide

/-! ### Faults and steps -/

/-- V-X1, V-X9, V-X14, V-X17, V-X10, V-X20: the priority of the faults, on words presented after reset. -/
theorem test_step_illegal : answered (step (resetThen 0x00000000)) = some 0x80000001 := by decide
theorem test_step_illegal_outranks : answered (step (resetThen 0x60010061)) = some 0x80000001 := by decide
theorem test_step_symbol_outranks : answered (step (resetThen 0x60000061)) = some 0x80000004 := by decide
theorem test_step_not_configured : answered (step (resetThen 0x60000041)) = some 0x80000003 := by decide
theorem test_step_bad_operand : answered (step (resetThen 0x33000000)) = some 0x80000002 := by decide
theorem test_step_rdst_after_reset : answered (step (resetThen 0x70000000)) = some 0x00000000 := by decide

/-- V-X21: a faulting ENC does not step. -/
theorem test_enc_fault_does_not_step : positions (exec (.enc 0x61) (demo 0 0 0)) = some (0, 0, 0) := by decide

/-- A pulse of rst clears the flags and answers nothing (R190, R199). -/
theorem test_step_reset :
    ∃ t, step { demo 1 2 3 with inputs := [.reset] } = .next t ∧ t.engine = Engine.reset ∧ t.responses = [] :=
  ⟨_, rfl, rfl, rfl⟩

/-- The word the host presents is decoded and run next. -/
theorem test_fetch_word :
    decodeTableWord 32 0x32030C05 = some (.ldrot 2 3 12 5) ∧
    step (State.reset.withFetchWord 32 0x32030C05) = exec (.ldrot 2 3 12 5) State.reset :=
  ⟨by decide, rfl⟩

/-! ### The assembler -/

/-- R159: CONFIGURE of program P4 begins and ends with the words of the listing; R160: ENCSTR. -/
theorem test_configure :
    (configure { rotors := [7, 5, 3], rotorInit := [18, 10, 12], rotorSetting := [1, 1, 5], reflectorLetter := 0x42,
                 plugboardSettings := [(0x42, 0x51), (0x43, 0x52)] }).map (fun l => l.map encode) =
      some [0x10000000, 0x20000110, 0x20000211, 0x30071201, 0x31050A01, 0x32030C05, 0x40000042] := by decide
theorem test_configure_line :
    (assembleLine ("CONFIGURE rotors=[7,5,3] rotor_init=[18,10,12] rotor_setting=[1,1,5] ".toList ++
        "reflector_letter='B' plugboard_settings=".toList ++ [asmOpen] ++ "B:Q, C:R".toList ++ [asmClose])) =
      configure { rotors := [7, 5, 3], rotorInit := [18, 10, 12], rotorSetting := [1, 1, 5], reflectorLetter := 0x42,
                  plugboardSettings := [(0x42, 0x51), (0x43, 0x52)] } := by decide
/-- Log 11: blanks around the marks of a sequence, and leading zeros. -/
theorem test_sequence_blanks :
    asmSequence "rotors".toList " rotors = [ 7, 005 ,3 ]".toList = some ([7, 5, 3], []) := by decide
/-- Log 13: a key written twice. -/
theorem test_repeated_key :
    asmPairs 9 (" B : Q, B:R ".toList ++ [asmClose]) = some ([(0x42, 0x51), (0x42, 0x52)], []) ∧
    configurePairs [(0x42, 0x51), (0x42, 0x52)] = some [.pbpair 1 16, .pbpair 1 17] := by decide
theorem test_encstr : (encstr [0x48, 0x45]).map encode = [0x60000048, 0x60000045] := by decide

/-! ### Witnesses: the hypotheses of each statement are met, at the boundaries of their ranges -/

/-- ReservedOpcodesRaiseIllegalCommand: each of the four opcodes. -/
theorem witness_ReservedOpcodes :
    ∀ w ∈ ([0x00000000, 0xD0000001, 0xEFFFFFFF, 0xFFFFFFFF] : List Word),
      (resetThen w).inputs = .command w :: [] ∧
      (w >>> 28 = 0x0 ∨ w >>> 28 = 0xD ∨ w >>> 28 = 0xE ∨ w >>> 28 = 0xF) := by
  intro w hw
  simp only [List.mem_cons, List.not_mem_nil, or_false] at hw
  rcases hw with rfl | rfl | rfl | rfl <;> exact ⟨rfl, by decide⟩

/-- SetReservedBitsRaiseIllegalCommand: a word of the first and of the last row, with and without a reserved bit. -/
theorem witness_SetReservedBits :
    (resetThen 0x10000001).inputs = .command 0x10000001 :: [] ∧ (0x10000001 : Word) >>> 28 = 0x1 ∧
    (0x10000001 : Word) &&& 0xFFFFFFFF ≠ 0x10000000 ∧ (0x10000000 : Word) &&& 0xFFFFFFFF = 0x10000000 ∧
    (0xC0000020 : Word) >>> 28 = 0xC ∧ (0xC0000020 : Word) &&& 0xFFFFFFE0 ≠ 0xC0000000 ∧
    (0xC000001F : Word) &&& 0xFFFFFFE0 = 0xC0000000 ∧ decode 0xC000001F = .ok (.xplg 31) := by decide

/-- StepRunsTheDecodedCommand and PresentedWordRunsNext. -/
theorem witness_StepRunsTheDecodedCommand :
    (resetThen 0x82000000).inputs = .command 0x82000000 :: [] ∧ decode 0x82000000 = .ok (.turn 2) ∧
    decodeTableWord 32 0x82000000 = some (.turn 2) := by decide

/-- StepTakesRstAndIdles: both clauses. -/
theorem witness_StepTakesRstAndIdles :
    ({ demo 0 0 0 with inputs := [.reset] }).inputs = .reset :: [] ∧ (demo 0 0 0).inputs = [] := ⟨rfl, rfl⟩

/-- ResponseWordHasTheShapeOfItsCommand: a normal answer of a state that meets the invariant, for ENC at both ends of
the alphabet. -/
theorem witness_ResponseWord :
    (demo 0 0 0).engine.Inv ∧
    (∃ t r, exec (.enc 0x41) (demo 0 0 0) = .next t ∧ t.responses = [] ++ [r] ∧ r.getLsbD 31 = false) ∧
    (∃ t r, exec (.enc 0x5A) (demo 0 0 0) = .next t ∧ t.responses = [] ++ [r] ∧ r.getLsbD 31 = false) :=
  ⟨by decide, ⟨_, _, rfl, rfl, by decide⟩, ⟨_, _, rfl, rfl, by decide⟩⟩

/-- FaultEntryChangesNothing, and the faulting clause of WriteMatrix: a fault of each kind. -/
theorem witness_FaultEntry :
    ∀ w ∈ ([0x00000000, 0x20001A00, 0x50000000, 0x60000040] : List Word),
      (resetThen w).inputs = .command w :: [] ∧
      ∃ r, answered (step (resetThen w)) = some r ∧ r.getLsbD 31 = true := by
  intro w hw
  simp only [List.mem_cons, List.not_mem_nil, or_false] at hw
  rcases hw with rfl | rfl | rfl | rfl
  · exact ⟨rfl, 0x80000001, by decide, by decide⟩
  · exact ⟨rfl, 0x80000002, by decide, by decide⟩
  · exact ⟨rfl, 0x80000003, by decide, by decide⟩
  · exact ⟨rfl, 0x80000004, by decide, by decide⟩

/-- FaultsByCommandAndPriority and OperandFaultsAreTheIllFormedCommands: operands on both sides of each limit, and both
values of the flags. -/
theorem witness_FaultsByCommand :
    (25 < (26 : BitVec 5).toNat ∧ ¬ 25 < (25 : BitVec 5).toNat) ∧
    ((0x40 : BitVec 8).toNat < 0x41 ∧ ¬ (0x41 : BitVec 8).toNat < 0x41 ∧
      0x5A < (0x5B : BitVec 8).toNat ∧ ¬ 0x5A < (0x5A : BitVec 8).toNat) ∧
    (State.reset.engine.vplg = false ∧ (demo 0 0 0).engine.vplg = true) ∧
    (State.reset.engine.SlotUnloaded 2 ∧ ¬ (demo 0 0 0).engine.SlotUnloaded 2) ∧
    ((Instr.xplg 26).wellFormed = false ∧ (Instr.xplg 25).wellFormed = true) := by decide

/-- WriteMatrix and ValidFlagsAreSetByTheirCommandOnly: a command of each row answers a next state. -/
theorem witness_WriteMatrix :
    ∀ i ∈ ([.pbclr, .pbpair 25 0, .ldrot 2 7 25 25, .ldref 0, .step, .enc 0x5A, .rdst, .turn 2, .xfwd 0 25, .xbwd 1 0,
        .xref 25, .xplg 0, .ldrot 3 0 0 0, .turn 3] : List Instr),
      (answered (exec i (demo 0 0 0))).isSome = true := by decide

/-- ValidFlagsAreSetByTheirCommandOnly: LDROT sets a flag that was 0. -/
theorem witness_ValidFlags :
    ∃ t, exec (.ldrot 0 0 0 0) State.reset = .next t ∧ t.engine.left.valid ≠ State.reset.engine.left.valid :=
  ⟨_, rfl, by decide⟩

/-- ResetClearsTheValidFlags: a state left by a pulse of rst. -/
theorem witness_ResetClears :
    ∃ s s' : State, s'.inputs.head? = some .reset ∧ step s' = .next s ∧ s'.engine.vref = true :=
  ⟨_, { demo 1 2 3 with inputs := [.reset] }, rfl, rfl, rfl⟩

/-- StepKeepsTheRangeInvariant: a loaded engine, on a command that moves it. -/
theorem witness_StepKeepsInv :
    ({ demo 25 4 25 with inputs := [.command 0x50000000] }).engine.Inv ∧
    ∃ t, step { demo 25 4 25 with inputs := [.command 0x50000000] } = .next t := ⟨by decide, _, rfl⟩

/-- UnloadedRegistersAreNeverObserved: two different engines after reset, on a command that reads a flag. -/
theorem witness_UnloadedRegisters :
    let e : Engine := { Engine.reset with refsel := 3, plug := Memory.identity,
                                          left := { Rotor.reset with pos := 31, sel := 7 } }
    e ≠ Engine.reset ∧ Engine.reset.SameWhereLoaded e ∧
    ∃ t t', step (resetThen 0x70000000) = .next t ∧ step { resetThen 0x70000000 with engine := e } = .next t' := by
  refine ⟨by decide, ?_, _, _, rfl, rfl⟩
  simp [Engine.SameWhereLoaded, Rotor.SameWhereLoaded, Engine.reset, Rotor.reset]

/-- LeftNotchReachesOnlyTheStatusWord: STEP with the left rotor at its notch. -/
theorem witness_LeftNotch :
    Instr.step ≠ .rdst ∧ ∃ e w, Answers .step (demo 16 0 0) e w := ⟨by decide, _, _, rfl⟩

/-- PbpairWritesItsTwoCells: operands at the ends of their range, and k = v. -/
theorem witness_Pbpair :
    (25 : BitVec 5).toNat ≤ 25 ∧ (0 : BitVec 5).toNat ≤ 25 ∧ (demo 0 0 0).engine.vplg = true ∧
    (answered (exec (.pbpair 25 25) (demo 0 0 0))) = some 0 := by decide

/-- XplgAnswersTheCell and XrefAnswersTheReflection. -/
theorem witness_Xplg_Xref :
    (25 : BitVec 5).toNat < 26 ∧ (demo 0 0 0).engine.vplg = true ∧ (demo 0 0 0).engine.vref = true := by decide

/-- PlugIsTheReplayOfTheAcceptedPairs and PlugIsAnInvolutionWithoutReuse: a stream with a refused pair, other commands
and a pair k = v. -/
theorem witness_PlugReplay :
    (∀ i ∈ ([.pbpair 0 1, .step, .pbpair 26 0, .pbpair 25 25] : List Instr), i ≠ .pbclr) ∧
    acceptedPairs [.pbpair 0 1, .step, .pbpair 26 0, .pbpair 25 25] = [(0, 1), (25, 25)] ∧
    (acceptedPairs [.pbpair 0 1, .step, .pbpair 26 0, .pbpair 25 25]).Pairwise
      (fun p q => p.1 ≠ q.1 ∧ p.1 ≠ q.2 ∧ p.2 ≠ q.1 ∧ p.2 ≠ q.2) := by decide

/-- ReusedLetterLeavesAStalePartner. -/
theorem witness_ReusedLetter : (0 : Letter) ≠ 1 ∧ (0 : Letter) ≠ 25 ∧ (1 : Letter) ≠ 25 := by decide

/-- LdrotMountsTheRotor: the largest position and ring setting. -/
theorem witness_Ldrot : (25 : BitVec 5).toNat ≤ 25 ∧ answered (exec (.ldrot 0 7 25 25) State.reset) = some 0 := by
  decide

/-- TurnAdvancesOneRotor, TwentySixTurnsRestoreTheEngine, XfwdAnswersTheForwardPass and XbwdAnswersTheBackwardPass: a
loaded slot of each number. -/
theorem witness_SlotHolds :
    (demo 25 0 1).engine.Inv ∧
    (demo 25 0 1).engine.SlotHolds 0 (demo 25 0 1).engine.left ∧ (demo 25 0 1).engine.left.valid = true ∧
    (demo 25 0 1).engine.SlotHolds 1 (demo 25 0 1).engine.middle ∧ (demo 25 0 1).engine.middle.valid = true ∧
    (demo 25 0 1).engine.SlotHolds 2 (demo 25 0 1).engine.right ∧ (demo 25 0 1).engine.right.valid = true ∧
    (25 : BitVec 5).toNat ≤ 25 :=
  ⟨by decide, .inl ⟨rfl, rfl⟩, rfl, .inr (.inl ⟨rfl, rfl⟩), rfl, .inr (.inr ⟨rfl, rfl⟩), rfl, by decide⟩

/-- RotorPassesAreInverse and OnlyTheDifferenceMatters: the wrap of both registers. -/
theorem witness_RotorPasses :
    (Rotor.mounted 3 25 0).pos.toNat ≤ 25 ∧ (Rotor.mounted 3 25 0).ring.toNat ≤ 25 ∧
    (Rotor.mounted 3 0 1).sel = (Rotor.mounted 3 25 0).sel ∧
    (Rotor.mounted 3 0 1).pos.toNat = ((Rotor.mounted 3 25 0).pos.toNat + 1) % 26 ∧
    (Rotor.mounted 3 0 1).ring.toNat = ((Rotor.mounted 3 25 0).ring.toNat + 1) % 26 := by decide

/-- ReflectorIsAnInvolution: the three values of REFSEL. -/
theorem witness_Reflector : ∀ r ∈ ([0, 1, 2] : List (BitVec 2)), ({ Engine.reset with refsel := r }).refsel ≠ 3 := by
  decide

/-- StepMovesTheRotors, DoubleTriggerIsEnteredByLdrotOrTurn and StepIsNeitherInjectiveNorOnto: the four cases of R152. -/
theorem witness_Step :
    ∀ s ∈ [demo 0 0 0, demo 0 0 21, demo 0 4 0, demo 25 4 21],
      s.engine.Inv ∧ s.engine.left.valid = true ∧ s.engine.middle.valid = true ∧ s.engine.right.valid = true ∧
      s.engine.rotorsValid = true := by decide

/-- DoubleTriggerIsEnteredByLdrotOrTurn: TURN and LDROT lead into the double-trigger state (0, 4, 21). -/
theorem witness_DoubleTrigger :
    (demo 0 3 21).engine.Inv ∧ (demo 0 3 21).engine.rotorsValid = true ∧
    ((demo 0 3 21).engine.atNotch .middle = false ∧ (demo 0 3 21).engine.atNotch .right = true) ∧
    exec (.turn 1) (demo 0 3 21) = .next { demo 0 4 21 with responses := [0] } ∧
    exec (.ldrot 1 1 4 0) (demo 0 3 21) = .next { demo 0 4 21 with responses := [0] } ∧
    ((demo 0 4 21).engine.atNotch .middle = true ∧ (demo 0 4 21).engine.atNotch .right = true) :=
  ⟨by decide, by decide, by decide, rfl, rfl, by decide⟩

/-- EncStepsThenSubstitutes: both ends of the alphabet and all five flags. -/
theorem witness_Enc :
    0x41 ≤ (0x41 : BitVec 8).toNat ∧ (0x5A : BitVec 8).toNat ≤ 0x5A ∧
    (demo 0 0 0).engine.left.valid = true ∧ (demo 0 0 0).engine.middle.valid = true ∧
    (demo 0 0 0).engine.right.valid = true ∧ (demo 0 0 0).engine.vref = true ∧ (demo 0 0 0).engine.vplg = true := by
  decide

/-- SteppingIgnoresRingsAndWirings. -/
theorem witness_SteppingIgnores : ∃ t, exec .step (demo 0 4 21) = .next t := ⟨_, rfl⟩

/-- EnciphermentIsReciprocal: the engine of the source's own vector, whose plugboard is an involution. -/
theorem witness_Reciprocal :
    (demoS4 18 10 12).engine.Inv ∧ (demoS4 18 10 12).engine.configured = true ∧
    (demoS4 18 10 12).engine.refsel = 1 ∧
    ∀ x : Letter, (demoS4 18 10 12).engine.plug.read x = cellOf (mod26 ((demoS4 18 10 12).engine.plug.read x).toNat) ∧
      (demoS4 18 10 12).engine.plug.read (mod26 ((demoS4 18 10 12).engine.plug.read x).toNat) = cellOf x := by decide

theorem witness_Reciprocal_involutive : (demoS4 18 10 12).engine.plug.Involutive :=
  fun x => ⟨_, witness_Reciprocal.2.2.2 x⟩

/-- IdentityReflectorReturnsPlugOfPlug. -/
theorem witness_IdentityReflector :
    (engineOf (0, 0, 0) (1, 0, 0) (2, 0, 0) 0 Memory.identity).Inv ∧
    (engineOf (0, 0, 0) (1, 0, 0) (2, 0, 0) 0 Memory.identity).configured = true ∧
    (engineOf (0, 0, 0) (1, 0, 0) (2, 0, 0) 0 Memory.identity).refsel = 0 := by decide

/-- ConfigureBuildsTheRecordedMachine and ConfigureRefusesIllegalRecords: a record at the ends of the ranges, and one
just past each. -/
theorem witness_Configure :
    (configure { rotors := [7, 0, 7], rotorInit := [25, 0, 25], rotorSetting := [25, 0, 25], reflectorLetter := 0xFF,
                 plugboardSettings := [(0x41, 0x5A)] }).isSome = true ∧
    configure { rotors := [8, 0, 7], rotorInit := [25, 0, 25], rotorSetting := [25, 0, 25], reflectorLetter := 0xFF,
                plugboardSettings := [] } = none ∧
    configure { rotors := [7, 0], rotorInit := [25, 0, 25], rotorSetting := [25, 0, 25], reflectorLetter := 0xFF,
                plugboardSettings := [] } = none ∧
    configure { rotors := [7, 0, 7], rotorInit := [25, 26, 25], rotorSetting := [25, 0, 25], reflectorLetter := 0xFF,
                plugboardSettings := [] } = none ∧
    configure { rotors := [7, 0, 7], rotorInit := [25, 0, 25], rotorSetting := [25, 0, 26], reflectorLetter := 0xFF,
                plugboardSettings := [] } = none ∧
    configure { rotors := [7, 0, 7], rotorInit := [25, 0, 25], rotorSetting := [25, 0, 25], reflectorLetter := 0xFF,
                plugboardSettings := [(0x41, 0x5B)] } = none := by decide

/-- EncstrSkipsTheFaultingCharacters: a text with a character on each side of the alphabet. -/
theorem witness_Encstr :
    ([0x40, 0x41, 0x5A, 0x5B] : List Byte).filter WellFormed.symbol = [0x41, 0x5A] := by decide

end Sys2Proof.Tests
end

/-! PROOFS about the state (10_state.md): what the valid flags guard, and who sets them. -/

namespace Sys2Proof.Machine

/-! ### Engines that agree where they are loaded (R33, R191) -/

section SameWhereLoaded

variable {e e' : Engine}

theorem Rotor.SameWhereLoaded.refl (r : Rotor) : r.SameWhereLoaded r := ⟨rfl, fun _ => rfl⟩

theorem Rotor.SameWhereLoaded.valid_eq {r r' : Rotor} (h : r.SameWhereLoaded r') : r.valid = r'.valid := h.1

theorem Rotor.SameWhereLoaded.shownPos_eq {r r' : Rotor} (h : r.SameWhereLoaded r') : r.shownPos = r'.shownPos := by
  obtain ⟨hvalid, hregs⟩ := h
  cases hv : r.valid with
  | false => simp [Rotor.shownPos, ← hvalid, hv]
  | true => rw [hregs hv]

theorem Rotor.SameWhereLoaded.shownAtn_eq {r r' : Rotor} (h : r.SameWhereLoaded r') : r.shownAtn = r'.shownAtn := by
  obtain ⟨hvalid, hregs⟩ := h
  cases hv : r.valid with
  | false => simp [Rotor.shownAtn, ← hvalid, hv]
  | true => rw [hregs hv]

theorem Engine.SameWhereLoaded.refl (e : Engine) : e.SameWhereLoaded e :=
  ⟨.refl _, .refl _, .refl _, rfl, fun _ => rfl, rfl, fun _ => rfl⟩

theorem Engine.SameWhereLoaded.rotor (h : e.SameWhereLoaded e') (k : Slot) :
    (e.rotor k).SameWhereLoaded (e'.rotor k) := by
  obtain ⟨hleft, hmiddle, hright, -⟩ := h
  cases k with
  | left => exact hleft
  | middle => exact hmiddle
  | right => exact hright

theorem Engine.SameWhereLoaded.vref_eq (h : e.SameWhereLoaded e') : e.vref = e'.vref := by
  obtain ⟨-, -, -, hvref, -⟩ := h
  exact hvref

theorem Engine.SameWhereLoaded.refsel_eq (h : e.SameWhereLoaded e') (hv : e.vref = true) : e.refsel = e'.refsel := by
  obtain ⟨-, -, -, -, hrefsel, -⟩ := h
  exact hrefsel hv

theorem Engine.SameWhereLoaded.vplg_eq (h : e.SameWhereLoaded e') : e.vplg = e'.vplg := by
  obtain ⟨-, -, -, -, -, hvplg, -⟩ := h
  exact hvplg

theorem Engine.SameWhereLoaded.plug_eq (h : e.SameWhereLoaded e') (hv : e.vplg = true) : e.plug = e'.plug := by
  obtain ⟨-, -, -, -, -, -, hplug⟩ := h
  exact hplug hv

theorem Engine.SameWhereLoaded.shownRefsel_eq (h : e.SameWhereLoaded e') : e.shownRefsel = e'.shownRefsel := by
  cases hv : e.vref with
  | false => simp [Engine.shownRefsel, ← h.vref_eq, hv]
  | true => rw [Engine.shownRefsel, Engine.shownRefsel, ← h.vref_eq, h.refsel_eq hv]

/-- The status word masks every field of an unloaded register (R156). -/
theorem Engine.SameWhereLoaded.status_eq (h : e.SameWhereLoaded e') : e.status = e'.status := by
  have hl : e.left.SameWhereLoaded e'.left := h.rotor .left
  have hm : e.middle.SameWhereLoaded e'.middle := h.rotor .middle
  have hr : e.right.SameWhereLoaded e'.right := h.rotor .right
  simp only [Engine.status, hl.shownPos_eq, hm.shownPos_eq, hr.shownPos_eq, hl.shownAtn_eq, hm.shownAtn_eq,
    hr.shownAtn_eq, hl.valid_eq, hm.valid_eq, hr.valid_eq, h.vref_eq, h.vplg_eq, h.shownRefsel_eq]

theorem Engine.SameWhereLoaded.rotorsValid_eq (h : e.SameWhereLoaded e') : e.rotorsValid = e'.rotorsValid := by
  obtain ⟨⟨hl, -⟩, ⟨hm, -⟩, ⟨hr, -⟩, -⟩ := h
  simp only [Engine.rotorsValid, hl, hm, hr]

theorem Engine.SameWhereLoaded.configured_eq (h : e.SameWhereLoaded e') : e.configured = e'.configured := by
  simp only [Engine.configured, h.rotorsValid_eq, h.vref_eq, h.vplg_eq]

/-- With the three rotors loaded the engines have the same banks. -/
theorem Engine.SameWhereLoaded.banks_eq (h : e.SameWhereLoaded e') (hv : e.rotorsValid = true) :
    e.left = e'.left ∧ e.middle = e'.middle ∧ e.right = e'.right := by
  obtain ⟨⟨-, hl⟩, ⟨-, hm⟩, ⟨-, hr⟩, -⟩ := h
  simp only [Engine.rotorsValid, Bool.and_eq_true] at hv
  obtain ⟨⟨vl, vm⟩, vr⟩ := hv
  exact ⟨hl vl, hm vm, hr vr⟩

/-- A configured engine has no unloaded register left in which to differ. -/
theorem Engine.SameWhereLoaded.eq_of_configured (h : e.SameWhereLoaded e') (hc : e.configured = true) : e = e' := by
  simp only [Engine.configured, Bool.and_eq_true] at hc
  obtain ⟨⟨hrotors, hvref⟩, hvplg⟩ := hc
  obtain ⟨hl, hm, hr⟩ := h.banks_eq hrotors
  cases e
  cases e'
  rw [Engine.mk.injEq]
  exact ⟨hl, hm, hr, h.refsel_eq hvref, h.vref_eq, h.plug_eq hvplg, h.vplg_eq⟩

/-- Writing banks that agree into one slot of both engines. -/
theorem Engine.SameWhereLoaded.setRotor (h : e.SameWhereLoaded e') {r r' : Rotor} (hr : r.SameWhereLoaded r')
    (k : Slot) : (e.setRotor k r).SameWhereLoaded (e'.setRotor k r') := by
  obtain ⟨hleft, hmiddle, hright, hrest⟩ := h
  cases k with
  | left => exact ⟨hr, hmiddle, hright, hrest⟩
  | middle => exact ⟨hleft, hr, hright, hrest⟩
  | right => exact ⟨hleft, hmiddle, hr, hrest⟩

/-- Step reads and writes the three banks only, so with all of them loaded it keeps the agreement (R151). -/
theorem Engine.SameWhereLoaded.stepped (h : e.SameWhereLoaded e') (hv : e.rotorsValid = true) :
    e.stepped.SameWhereLoaded e'.stepped := by
  obtain ⟨hl, hm, hr⟩ := h.banks_eq hv
  obtain ⟨-, -, -, hrest⟩ := h
  simp only [Engine.stepped_eq, ← hl, ← hm, ← hr]
  exact ⟨.refl _, .refl _, .refl _, hrest⟩

end SameWhereLoaded

/-! ### What a command answers on engines that agree -/

/-- Two results that cannot be told apart: the same fault, or the same answer and engines that agree where loaded. -/
inductive Result.SameWhereLoaded : Result → Result → Prop
  | ok {e e' : Engine} (v : Payload) (h : e.SameWhereLoaded e') : SameWhereLoaded (.ok (e, v)) (.ok (e', v))
  | error (f : FaultKind) : SameWhereLoaded (.error f) (.error f)

/-- A command that asks for a valid flag: the results need to agree only where the flag, equal on both sides, is 1. -/
theorem Result.SameWhereLoaded.guarded {b b' : Bool} {r r' : Result} (f : FaultKind) (hb : b = b')
    (h : b = true → Result.SameWhereLoaded r r') :
    Result.SameWhereLoaded (if b then r else .error f) (if b' then r' else .error f) := by
  subst hb
  cases b with
  | false => exact .error f
  | true => exact h rfl

section Results

variable {e e' : Engine} (h : e.SameWhereLoaded e')
include h

theorem pbclrResult_sameWhereLoaded : Result.SameWhereLoaded (pbclrResult e) (pbclrResult e') := by
  obtain ⟨hl, hm, hr, hvref, hrefsel, -, -⟩ := h
  exact .ok 0 ⟨hl, hm, hr, hvref, hrefsel, rfl, fun _ => rfl⟩

theorem pbpairResult_sameWhereLoaded (k v : BitVec 5) :
    Result.SameWhereLoaded (pbpairResult k v e) (pbpairResult k v e') := by
  unfold pbpairResult
  split
  · next a b _ _ =>
    refine .guarded _ h.vplg_eq fun hv => ?_
    rw [← h.plug_eq hv]
    obtain ⟨hl, hm, hr, hvref, hrefsel, hvplg, -⟩ := h
    exact .ok 0 ⟨hl, hm, hr, hvref, hrefsel, hvplg, fun _ => rfl⟩
  · exact .error _

theorem xplgResult_sameWhereLoaded (x : BitVec 5) : Result.SameWhereLoaded (xplgResult x e) (xplgResult x e') := by
  unfold xplgResult
  split
  · exact .error _
  · next c _ =>
    refine .guarded _ h.vplg_eq fun hv => ?_
    rw [Engine.plugged, Engine.plugged, ← h.plug_eq hv]
    exact .ok _ h

theorem ldrefResult_sameWhereLoaded (id : Byte) : Result.SameWhereLoaded (ldrefResult id e) (ldrefResult id e') := by
  obtain ⟨hl, hm, hr, -, -, hplug⟩ := h
  exact .ok 0 ⟨hl, hm, hr, rfl, fun _ => rfl, hplug⟩

theorem xrefResult_sameWhereLoaded (x : BitVec 5) : Result.SameWhereLoaded (xrefResult x e) (xrefResult x e') := by
  unfold xrefResult
  split
  · exact .error _
  · next c _ =>
    refine .guarded _ h.vref_eq fun hv => ?_
    rw [Engine.refl, Engine.refl, ← h.refsel_eq hv]
    exact .ok _ h

theorem ldrotResult_sameWhereLoaded (slot : BitVec 2) (sel : BitVec 3) (pos ring : BitVec 5) :
    Result.SameWhereLoaded (ldrotResult slot sel pos ring e) (ldrotResult slot sel pos ring e') := by
  unfold ldrotResult
  split
  · exact .ok 0 (h.setRotor (.refl _) _)
  · exact .error _

theorem turnResult_sameWhereLoaded (slot : BitVec 2) :
    Result.SameWhereLoaded (turnResult slot e) (turnResult slot e') := by
  unfold turnResult
  split
  · exact .error _
  · next k _ =>
    obtain ⟨hvalid, hregs⟩ := h.rotor k
    refine .guarded _ hvalid fun hv => ?_
    rw [Engine.turnover, Engine.turnover, ← hregs hv]
    exact .ok 0 (h.setRotor (.refl _) k)

theorem probeResult_sameWhereLoaded (through : Rotor → Nat → Letter) (slot : BitVec 2) (x : BitVec 5) :
    Result.SameWhereLoaded (probeResult through slot x e) (probeResult through slot x e') := by
  unfold probeResult
  split
  · next k c _ _ =>
    obtain ⟨hvalid, hregs⟩ := h.rotor k
    refine .guarded _ hvalid fun hv => ?_
    rw [← hregs hv]
    exact .ok _ h
  · exact .error _

theorem stepResult_sameWhereLoaded : Result.SameWhereLoaded (stepResult e) (stepResult e') :=
  .guarded _ h.rotorsValid_eq fun hv => .ok 0 (h.stepped hv)

theorem encResult_sameWhereLoaded (ch : Byte) : Result.SameWhereLoaded (encResult ch e) (encResult ch e') := by
  unfold encResult
  split
  · exact .error _
  · next c _ =>
    refine .guarded _ h.configured_eq fun hv => ?_
    rw [← h.eq_of_configured hv]
    exact .ok _ (.refl _)

theorem rdstResult_sameWhereLoaded : Result.SameWhereLoaded (rdstResult e) (rdstResult e') := by
  rw [rdstResult, rdstResult, ← h.status_eq]
  exact .ok _ h

/-- No command tells two engines apart that agree where they are loaded. -/
theorem result_sameWhereLoaded (i : Instr) : Result.SameWhereLoaded (result i e) (result i e') := by
  cases i with
  | pbclr => exact pbclrResult_sameWhereLoaded h
  | pbpair k v => exact pbpairResult_sameWhereLoaded h k v
  | ldrot slot sel pos ring => exact ldrotResult_sameWhereLoaded h slot sel pos ring
  | ldref ch => exact ldrefResult_sameWhereLoaded h ch
  | step => exact stepResult_sameWhereLoaded h
  | enc ch => exact encResult_sameWhereLoaded h ch
  | rdst => exact rdstResult_sameWhereLoaded h
  | turn slot => exact turnResult_sameWhereLoaded h slot
  | xfwd slot x => exact probeResult_sameWhereLoaded h Rotor.fwd slot x
  | xbwd slot x => exact probeResult_sameWhereLoaded h Rotor.bwd slot x
  | xref x => exact xrefResult_sameWhereLoaded h x
  | xplg x => exact xplgResult_sameWhereLoaded h x

end Results

/-! ### What a step does to states that agree -/

/-- The relation that a step keeps: the same ports, and engines that agree where they are loaded. -/
def State.SameWhereLoaded (s s' : State) : Prop :=
  s.engine.SameWhereLoaded s'.engine ∧ s.inputs = s'.inputs ∧ s.responses = s'.responses

section States

variable {s s' t t' : State}

theorem State.SameWhereLoaded.respond (h : s.SameWhereLoaded s') (w : Word) :
    (s.respond w).SameWhereLoaded (s'.respond w) := by
  obtain ⟨hengine, hinputs, hresponses⟩ := h
  exact ⟨hengine, hinputs, by simp [hresponses]⟩

theorem State.SameWhereLoaded.answer (h : s.SameWhereLoaded s') {r r' : Result} (hr : Result.SameWhereLoaded r r')
    (ht : s.answer r = .next t) (ht' : s'.answer r' = .next t') : t.SameWhereLoaded t' := by
  cases hr with
  | @ok e e' v he =>
    cases ht
    cases ht'
    obtain ⟨-, hports⟩ := h
    have hagree : ({ s with engine := e } : State).SameWhereLoaded { s' with engine := e' } := ⟨he, hports⟩
    exact hagree.respond _
  | error f =>
    cases ht
    cases ht'
    exact h.respond _

theorem State.SameWhereLoaded.exec (h : s.SameWhereLoaded s') (i : Instr) (ht : exec i s = .next t)
    (ht' : exec i s' = .next t') : t.SameWhereLoaded t' := by
  rw [exec_eq_answer] at ht ht'
  exact h.answer (result_sameWhereLoaded h.1 i) ht ht'

theorem State.SameWhereLoaded.issue (h : s.SameWhereLoaded s') (w : Word) (ht : issue w s = .next t)
    (ht' : issue w s' = .next t') : t.SameWhereLoaded t' := by
  unfold Machine.issue at ht ht'
  cases hd : decode w with
  | ok i =>
    rw [hd] at ht ht'
    exact h.exec i ht ht'
  | error why =>
    rw [hd] at ht ht'
    cases ht
    cases ht'
    exact h.respond _

theorem State.SameWhereLoaded.step (h : s.SameWhereLoaded s') (ht : step s = .next t) (ht' : step s' = .next t') :
    t.SameWhereLoaded t' := by
  obtain ⟨e, inputs, responses⟩ := s
  obtain ⟨e', inputs', responses'⟩ := s'
  obtain ⟨hengine, rfl, rfl⟩ := h
  match inputs with
  | [] =>
    cases ht
    cases ht'
    exact ⟨hengine, rfl, rfl⟩
  | .reset :: rest =>
    cases ht
    cases ht'
    exact ⟨.refl _, rfl, rfl⟩
  | .command w :: rest =>
    rw [step_command _ w rest rfl] at ht ht'
    have hagree : State.SameWhereLoaded ⟨e, rest, responses⟩ ⟨e', rest, responses⟩ := ⟨hengine, rfl, rfl⟩
    exact hagree.issue w ht ht'

end States

/-- Settles O18: agreement where loaded is kept by every result, hence by every step, and answers are equal. -/
theorem unloadedRegistersAreNeverObserved : Obligations.UnloadedRegistersAreNeverObserved := by
  intro s s' t t' hengine hinputs hresponses ht ht'
  exact State.SameWhereLoaded.step ⟨hengine, hinputs, hresponses⟩ ht ht'

/-! ### Who sets the valid flags (R27) -/

/-- A flag that goes from `b` to `b'` is as it was, or `cause` holds and has set it. -/
def SetOnlyBy (cause : Prop) (b b' : Bool) : Prop := b' = b ∨ (cause ∧ b' = true)

section SetOnlyBy

variable {cause : Prop} {b b' : Bool}

theorem SetOnlyBy.keeps (h : SetOnlyBy cause b b') (hb : b = true) : b' = true := by
  obtain heq | ⟨-, hset⟩ := h
  · rw [heq, hb]
  · exact hset

theorem SetOnlyBy.cause_of_ne (h : SetOnlyBy cause b b') (hne : b' ≠ b) : cause := by
  obtain heq | ⟨hcause, -⟩ := h
  · exact absurd heq hne
  · exact hcause

end SetOnlyBy

/-- The slot field that names a slot (R83). -/
def Slot.number : Slot → BitVec 2
  | .left => 0
  | .middle => 1
  | .right => 2

theorem Slot.number_of_slotOperand {b : BitVec 2} {k : Slot} (h : slotOperand b = some k) : b = k.number := by
  obtain ⟨rfl, rfl⟩ | ⟨rfl, rfl⟩ | ⟨rfl, rfl⟩ := (slotOperand_eq_some b k).1 h <;> rfl

/-- The five valid flags of `e'` are those of `e`. -/
def Engine.SameFlags (e e' : Engine) : Prop :=
  (∀ k, (e'.rotor k).valid = (e.rotor k).valid) ∧ e'.vref = e.vref ∧ e'.vplg = e.vplg

/-- From `e` to `e'` no valid flag is cleared, and the command `i` is the one that sets what is set (R27). -/
def Engine.FlagsSetBy (i : Instr) (e e' : Engine) : Prop :=
  (∀ k, SetOnlyBy (∃ sel pos ring, i = .ldrot k.number sel pos ring) (e.rotor k).valid (e'.rotor k).valid) ∧
  SetOnlyBy (∃ ch, i = .ldref ch) e.vref e'.vref ∧
  SetOnlyBy (i = .pbclr) e.vplg e'.vplg

theorem Engine.SameFlags.refl (e : Engine) : e.SameFlags e := ⟨fun _ => rfl, rfl, rfl⟩

theorem Engine.SameFlags.flagsSetBy {e e' : Engine} (h : e.SameFlags e') (i : Instr) : Engine.FlagsSetBy i e e' := by
  obtain ⟨hrotors, hvref, hvplg⟩ := h
  exact ⟨fun k => .inl (hrotors k), .inl hvref, .inl hvplg⟩

theorem Engine.turnover_sameFlags (e : Engine) (k : Slot) : e.SameFlags (e.turnover k) := by
  refine ⟨fun k' => ?_, Engine.turnover_vref e k, Engine.turnover_vplg e k⟩
  rw [Engine.rotor_turnover]
  split
  · next hk => rw [Rotor.turned_valid, hk]
  · rfl

@[simp] theorem Rotor.turnedTimes_valid (r : Rotor) (n : Nat) : (r.turnedTimes n).valid = r.valid := by
  induction n with
  | zero => rfl
  | succ n ih => rw [Rotor.turnedTimes, Rotor.turned_valid, ih]

theorem Engine.stepped_sameFlags (e : Engine) : e.SameFlags e.stepped := by
  rw [Engine.stepped_eq]
  refine ⟨fun k => ?_, rfl, rfl⟩
  cases k with
  | left => exact Rotor.turnedTimes_valid _ _
  | middle => exact Rotor.turnedTimes_valid _ _
  | right => rfl

theorem Engine.setRotor_mounted_flagsSetBy (e : Engine) (k : Slot) (sel : BitVec 3) (p r : Letter)
    (pos ring : BitVec 5) :
    Engine.FlagsSetBy (.ldrot k.number sel pos ring) e (e.setRotor k (Rotor.mounted sel p r)) := by
  refine ⟨fun k' => ?_, .inl (Engine.setRotor_vref e _ k), .inl (Engine.setRotor_vplg e _ k)⟩
  rw [Engine.rotor_setRotor]
  split
  · next hk => exact .inr ⟨⟨sel, pos, ring, by rw [hk]⟩, rfl⟩
  · exact .inl rfl

/-- What a command that ends normally does to the valid flags: LDROT, LDREF and PBCLR set their own, the rest none. -/
theorem result_flagsSetBy (i : Instr) {e e' : Engine} {w : Payload} (h : result i e = .ok (e', w)) :
    Engine.FlagsSetBy i e e' := by
  cases i with
  | pbclr =>
    obtain ⟨rfl, -⟩ := pbclrResult_ok h
    exact ⟨fun _ => .inl rfl, .inl rfl, .inr ⟨rfl, rfl⟩⟩
  | pbpair k v =>
    obtain ⟨a, b, -, -, -, rfl, -⟩ := pbpairResult_ok h
    exact Engine.SameFlags.flagsSetBy ⟨fun _ => rfl, rfl, rfl⟩ _
  | ldrot slot sel pos ring =>
    obtain ⟨k, p, r, hk, -, -, rfl, -⟩ := ldrotResult_ok h
    rw [Slot.number_of_slotOperand hk]
    exact Engine.setRotor_mounted_flagsSetBy e k sel p r pos ring
  | ldref ch =>
    obtain ⟨rfl, -⟩ := ldrefResult_ok h
    exact ⟨fun _ => .inl rfl, .inr ⟨⟨ch, rfl⟩, rfl⟩, .inl rfl⟩
  | step =>
    obtain ⟨-, rfl, -⟩ := stepResult_ok h
    exact (Engine.stepped_sameFlags e).flagsSetBy _
  | enc ch =>
    obtain ⟨c, -, -, rfl, -⟩ := encResult_ok h
    exact (Engine.stepped_sameFlags e).flagsSetBy _
  | rdst =>
    obtain ⟨rfl, -⟩ := rdstResult_ok h
    exact (Engine.SameFlags.refl _).flagsSetBy _
  | turn slot =>
    obtain ⟨k, -, -, rfl, -⟩ := turnResult_ok h
    exact (Engine.turnover_sameFlags e k).flagsSetBy _
  | xfwd slot x =>
    obtain ⟨k, c, -, -, -, rfl, -⟩ := probeResult_ok h
    exact (Engine.SameFlags.refl _).flagsSetBy _
  | xbwd slot x =>
    obtain ⟨k, c, -, -, -, rfl, -⟩ := probeResult_ok h
    exact (Engine.SameFlags.refl _).flagsSetBy _
  | xref x =>
    obtain ⟨c, -, -, rfl, -⟩ := xrefResult_ok h
    exact (Engine.SameFlags.refl _).flagsSetBy _
  | xplg x =>
    obtain ⟨c, -, -, rfl, -⟩ := xplgResult_ok h
    exact (Engine.SameFlags.refl _).flagsSetBy _

theorem exec_flagsSetBy {i : Instr} {s t : State} (h : exec i s = .next t) :
    Engine.FlagsSetBy i s.engine t.engine := by
  obtain ⟨e, w, hok, rfl⟩ | ⟨f, -, rfl⟩ := exec_next i s t h
  · exact result_flagsSetBy i hok
  · exact (Engine.SameFlags.refl _).flagsSetBy i

/-- Settles O14, from what a command does to each of the five flags. -/
theorem validFlagsAreSetByTheirCommandOnly : Obligations.ValidFlagsAreSetByTheirCommandOnly := by
  intro i s t h
  obtain ⟨hrotor, hvref, hvplg⟩ := exec_flagsSetBy h
  exact ⟨(hrotor .left).keeps, (hrotor .middle).keeps, (hrotor .right).keeps, hvref.keeps, hvplg.keeps,
    (hrotor .left).cause_of_ne, (hrotor .middle).cause_of_ne, (hrotor .right).cause_of_ne, hvref.cause_of_ne,
    hvplg.cause_of_ne⟩

end Sys2Proof.Machine

/-! PROOFS about the memory (20_memory.md): the contents of PLUG along a run, and the two wiring banks. -/

namespace Sys2Proof.Machine

/-! ### Runs of several commands (R65, R195) -/

theorem exec_completes (i : Instr) (s : State) : ∃ t, exec i s = .next t := by
  rw [exec_eq_answer]
  exact s.answer_completes _

theorem execList_cons {i : Instr} {s t : State} (h : exec i s = .next t) (is : List Instr) :
    execList (i :: is) s = execList is t := by
  rw [execList, h]

/-! ### The pairs of a list of commands -/

theorem acceptedPairs_cons (i : Instr) (is : List Instr) :
    acceptedPairs (i :: is) = acceptedPairs [i] ++ acceptedPairs is := by
  cases i with
  | pbpair k v =>
    simp only [acceptedPairs]
    split <;> rfl
  | _ => rfl

theorem acceptedPairs_pbpair_cellOf (a b : Letter) :
    acceptedPairs [.pbpair (cellOf a) (cellOf b)] = [(a, b)] := by
  simp [acceptedPairs]

/-- With VPLG 1 a faulting command adds no pair: PBPAIR then faults on its operands only (R142). -/
theorem acceptedPairs_of_result_error {i : Instr} {e : Engine} {f : FaultKind} (hv : e.vplg = true)
    (h : result i e = .error f) : acceptedPairs [i] = [] := by
  cases i with
  | pbpair k v =>
    simp only [acceptedPairs]
    split
    · next a b ha hb => simp [result, pbpairResult, ha, hb, hv] at h
    · rfl
  | _ => rfl

/-! ### The replay of pairs on a PLUG table (R60) -/

/-- The writes of each pair in turn. -/
def Memory.replay (m : Memory) (ps : List (Letter × Letter)) : Memory :=
  ps.foldl (fun m p => m.pair p.1 p.2) m

@[simp] theorem Memory.replay_nil (m : Memory) : m.replay [] = m := rfl

@[simp] theorem Memory.replay_singleton (m : Memory) (a b : Letter) : m.replay [(a, b)] = m.pair a b := rfl

theorem Memory.replay_append (m : Memory) (ps qs : List (Letter × Letter)) :
    m.replay (ps ++ qs) = (m.replay ps).replay qs :=
  List.foldl_append

theorem Memory.wf_replay {m : Memory} (h : m.wf = true) (ps : List (Letter × Letter)) : (m.replay ps).wf = true := by
  induction ps generalizing m with
  | nil => exact h
  | cons p ps ih => exact ih (Memory.wf_pair m p.1 p.2 h)

/-! ### PLUG along a run -/

@[simp] theorem Engine.stepped_plug (e : Engine) : e.stepped.plug = e.plug := by
  rw [Engine.stepped_eq]

/-- Of the commands that end normally only PBCLR and PBPAIR touch PLUG, and PBPAIR by its own pair (R34). -/
theorem result_plug {i : Instr} {e e' : Engine} {w : Payload} (hne : i ≠ .pbclr) (h : result i e = .ok (e', w)) :
    e'.plug = e.plug.replay (acceptedPairs [i]) := by
  cases i with
  | pbclr => exact absurd rfl hne
  | pbpair k v =>
    obtain ⟨a, b, rfl, rfl, -, rfl, -⟩ := pbpairResult_ok h
    rw [acceptedPairs_pbpair_cellOf, Memory.replay_singleton]
  | ldrot slot sel pos ring =>
    obtain ⟨k, p, r, -, -, -, rfl, -⟩ := ldrotResult_ok h
    exact Engine.setRotor_plug _ _ k
  | ldref ch =>
    obtain ⟨rfl, -⟩ := ldrefResult_ok h
    rfl
  | step =>
    obtain ⟨-, rfl, -⟩ := stepResult_ok h
    exact Engine.stepped_plug e
  | enc ch =>
    obtain ⟨c, -, -, rfl, -⟩ := encResult_ok h
    exact Engine.stepped_plug e
  | rdst =>
    obtain ⟨rfl, -⟩ := rdstResult_ok h
    rfl
  | turn slot =>
    obtain ⟨k, -, -, rfl, -⟩ := turnResult_ok h
    exact Engine.turnover_plug e k
  | xfwd slot x =>
    obtain ⟨k, c, -, -, -, rfl, -⟩ := probeResult_ok h
    rfl
  | xbwd slot x =>
    obtain ⟨k, c, -, -, -, rfl, -⟩ := probeResult_ok h
    rfl
  | xref x =>
    obtain ⟨c, -, -, rfl, -⟩ := xrefResult_ok h
    rfl
  | xplg x =>
    obtain ⟨c, -, -, rfl, -⟩ := xplgResult_ok h
    rfl

theorem exec_plug {i : Instr} {s t : State} (hne : i ≠ .pbclr) (hv : s.engine.vplg = true) (h : exec i s = .next t) :
    t.engine.plug = s.engine.plug.replay (acceptedPairs [i]) := by
  obtain ⟨e, w, hok, rfl⟩ | ⟨f, herror, rfl⟩ := exec_next i s t h
  · exact result_plug hne hok
  · rw [acceptedPairs_of_result_error hv herror, Memory.replay_nil]

theorem exec_keeps_vplg {i : Instr} {s t : State} (hv : s.engine.vplg = true) (h : exec i s = .next t) :
    t.engine.vplg = true := by
  obtain ⟨-, -, hvplg⟩ := exec_flagsSetBy h
  exact hvplg.keeps hv

/-- With a plugboard started, a run without PBCLR completes and replays its pairs on PLUG. -/
theorem execList_plug {cmds : List Instr} {s : State} (hne : ∀ i ∈ cmds, i ≠ .pbclr) (hv : s.engine.vplg = true) :
    ∃ t, execList cmds s = .next t ∧ t.engine.plug = s.engine.plug.replay (acceptedPairs cmds) := by
  induction cmds generalizing s with
  | nil => exact ⟨s, rfl, rfl⟩
  | cons i is ih =>
    rw [List.forall_mem_cons] at hne
    obtain ⟨hi, his⟩ := hne
    obtain ⟨s', hs'⟩ := exec_completes i s
    obtain ⟨t, hrun, hplug⟩ := ih his (exec_keeps_vplg hv hs')
    refine ⟨t, by rw [execList_cons hs', hrun], ?_⟩
    rw [hplug, exec_plug hi hv hs', ← Memory.replay_append, ← acceptedPairs_cons]

/-- From any state, PBCLR starts the replay at the identity (R60, R141). -/
theorem execList_pbclr_plug {cmds : List Instr} (hne : ∀ i ∈ cmds, i ≠ .pbclr) (s : State) :
    ∃ t, execList (.pbclr :: cmds) s = .next t ∧ t.engine.plug = Memory.identity.replay (acceptedPairs cmds) := by
  have hclear := exec_of_ok .pbclr s _ _ rfl
  rw [execList_cons hclear]
  exact execList_plug hne rfl

/-- Settles O23, from the replay of a run and its keeping every cell a letter code. -/
theorem plugIsTheReplayOfTheAcceptedPairs : Obligations.PlugIsTheReplayOfTheAcceptedPairs := by
  intro cmds s hne
  obtain ⟨t, hrun, hplug⟩ := execList_pbclr_plug hne s
  refine ⟨t, hrun, hplug, (Memory.wf_iff _).1 ?_⟩
  rw [hplug]
  exact Memory.wf_replay Memory.wf_identity _

/-! ### The wiring banks (R52, R53, R55, R56) -/

@[simp] theorem mod26_letter (x : Letter) : mod26 x.val = x :=
  Fin.ext (Nat.mod_eq_of_lt x.isLt)

/-- The two banks in one direction (R56), read off the catalog rows. -/
theorem readWbwd_readWfwd (row : BitVec 3) (i : Letter) : readWbwd row (mod26 (readWfwd row i).toNat) = cellOf i := by
  revert row i
  decide

/-- The two banks in the other direction (R56). -/
theorem readWfwd_readWbwd (row : BitVec 3) (i : Letter) : readWfwd row (mod26 (readWbwd row i).toNat) = cellOf i := by
  revert row i
  decide

/-- Every forward cell is a letter code: it is what the forward bank holds where the backward bank leads back to. -/
theorem readWfwd_eq_cellOf (row : BitVec 3) (i : Letter) : readWfwd row i = cellOf (mod26 (readWfwd row i).toNat) := by
  have h := readWfwd_readWbwd row (mod26 (readWfwd row i).toNat)
  rwa [readWbwd_readWfwd, cellOf_toNat, mod26_letter] at h

theorem readWbwd_eq_cellOf (row : BitVec 3) (i : Letter) : readWbwd row i = cellOf (mod26 (readWbwd row i).toNat) := by
  have h := readWbwd_readWfwd row (mod26 (readWbwd row i).toNat)
  rwa [readWfwd_readWbwd, cellOf_toNat, mod26_letter] at h

theorem readWfwd_le (row : BitVec 3) (i : Letter) : (readWfwd row i).toNat ≤ 25 := by
  rw [readWfwd_eq_cellOf]
  exact cellOf_le _

theorem readWbwd_le (row : BitVec 3) (i : Letter) : (readWbwd row i).toNat ≤ 25 := by
  rw [readWbwd_eq_cellOf]
  exact cellOf_le _

/-- A forward cell holds the letter code `v` exactly at the index that the backward bank gives for `v`. -/
theorem readWfwd_eq_cellOf_iff (row : BitVec 3) (i v : Letter) :
    readWfwd row i = cellOf v ↔ i = mod26 (readWbwd row v).toNat := by
  constructor
  · intro h
    have hback := readWbwd_readWfwd row i
    rw [h, cellOf_toNat, mod26_letter] at hback
    rw [hback, cellOf_toNat, mod26_letter]
  · rintro rfl
    exact readWfwd_readWbwd row v

/-- Settles O31: each bank undoes the other, which fixes the one index of each value. -/
theorem wiringBanksAreInversePermutations : Obligations.WiringBanksAreInversePermutations := by
  intro row
  constructor
  · intro i
    exact ⟨readWfwd_le row i, readWbwd_le row i, readWbwd_readWfwd row i, readWfwd_readWbwd row i⟩
  · intro v
    exact ⟨_, readWfwd_readWbwd row v, fun i hi => (readWfwd_eq_cellOf_iff row i v).1 hi⟩

end Sys2Proof.Machine

/-! PROOFS about the encoding (30_encoding.md): fields of words, the decoder and the encoder, responses, operand
faults. -/

namespace Sys2Proof

/-! ### Fields of a word (R84, R92) -/

theorem field_or (w w' : Word) (lo n : Nat) : field (w ||| w') lo n = field w lo n ||| field w' lo n :=
  BitVec.extractLsb'_or

theorem field_placed_same {n lo : Nat} (x : BitVec n) (h : lo + n ≤ 32) : field (placed lo x) lo n = x := by
  apply BitVec.eq_of_getLsbD_eq
  intro i hi
  have hword : lo + i < 32 := by omega
  simp [field, placed, hi, hword]

/-- A field reads 0 where the placed bits lie wholly above it or wholly below it. -/
theorem field_placed_disjoint {m lo' lo n : Nat} (x : BitVec m) (h : lo + n ≤ lo' ∨ lo' + m ≤ lo) :
    field (placed lo' x) lo n = 0 := by
  apply BitVec.eq_of_getLsbD_eq
  intro i hi
  obtain habove | hbelow := h
  · have hbit : lo + i < lo' := by omega
    simp [field, placed, hbit]
  · have hbit : x.getLsbD (lo + i - lo') = false := BitVec.getLsbD_of_ge x _ (by omega)
    simp [field, placed, hbit]

/-- A field put back in its place is the word with every other bit cleared. -/
theorem placed_field (w : Word) (lo n : Nat) : placed lo (field w lo n) = w &&& placed lo (BitVec.allOnes n) := by
  apply BitVec.eq_of_getLsbD_eq
  intro i hi
  by_cases hbit : i < lo
  · simp [field, placed, hbit]
  · have hback : lo + (i - lo) = i := by omega
    simp [field, placed, hbit, hback, hi, Bool.and_comm]

/-- The opcode field is all that a shift by 28 leaves (R84). -/
theorem field_opcode_eq_setWidth (w : Word) : field w 28 4 = (w >>> 28).setWidth 4 := rfl

/-! ### The opcode map (R93, R94, R95) -/

theorem opcodeOf_pattern (op : Opcode) : opcodeOf (field op.pattern 28 4) = some op := by
  cases op <;> rfl

/-- Below the opcode the match column is 0 (R93). -/
theorem field_pattern {lo n : Nat} (op : Opcode) (h : lo + n ≤ 28) : field op.pattern lo n = 0 := by
  have hplaced : op.pattern = placed 28 (field op.pattern 28 4) := by cases op <;> rfl
  rw [hplaced]
  exact field_placed_disjoint _ (.inl h)

/-- The row of an opcode: columns op, match and mask (R93). -/
def Opcode.row (op : Opcode) : Word × Word × Word := (op.pattern >>> 28, op.pattern, op.mask)

/-- The opcodes in the order of the map. -/
def Opcode.all : List Opcode := [.pbclr, .pbpair, .ldrot, .ldref, .step, .enc, .rdst, .turn, .xfwd, .xbwd, .xref, .xplg]

theorem opcodeOf_of_shift {op : Opcode} {w : Word} (h : w >>> 28 = op.pattern >>> 28) :
    opcodeOf (field w 28 4) = some op := by
  rw [field_opcode_eq_setWidth, h, ← field_opcode_eq_setWidth, opcodeOf_pattern]

/-! ### The decoder, case by case (R97) -/

theorem decode_of_match {op : Opcode} {w : Word} (hop : opcodeOf (field w 28 4) = some op)
    (hmatch : w &&& op.mask = op.pattern) : decode w = .ok (op.operands w) := by
  simp only [decode, hop, hmatch, if_true]

theorem decode_of_reservedBit {op : Opcode} {w : Word} (hop : opcodeOf (field w 28 4) = some op)
    (hmatch : w &&& op.mask ≠ op.pattern) : decode w = .error .reservedBit := by
  simp only [decode, hop, hmatch, if_false]

theorem decode_of_reservedOpcode {w : Word} (hop : opcodeOf (field w 28 4) = none) :
    decode w = .error .reservedOpcode := by
  simp only [decode, hop]

theorem decode_eq_ok {w : Word} {i : Instr} (h : decode w = .ok i) :
    ∃ op : Opcode, w &&& op.mask = op.pattern ∧ op.operands w = i := by
  unfold decode at h
  split at h
  · cases h
  · next op _ =>
    split at h
    · next hmatch => exact ⟨op, hmatch, Except.ok.inj h⟩
    · cases h

/-! ### The encoder is the inverse of the decoder (R84, R95, R98) -/

/-- The operands of a command, each placed where its format has it (R84). -/
def Instr.operandBits : Instr → Word
  | .pbclr => 0
  | .pbpair k v => placed 8 k ||| placed 0 v
  | .ldrot slot sel pos ring => placed 24 slot ||| placed 16 sel ||| placed 8 pos ||| placed 0 ring
  | .ldref ch => placed 0 ch
  | .step => 0
  | .enc ch => placed 0 ch
  | .rdst => 0
  | .turn slot => placed 24 slot
  | .xfwd slot x => placed 24 slot ||| placed 0 x
  | .xbwd slot x => placed 24 slot ||| placed 0 x
  | .xref x => placed 0 x
  | .xplg x => placed 0 x

theorem encode_eq_pattern_or (i : Instr) : encode i = i.opcode.pattern ||| i.operandBits := by
  cases i <;> simp only [encode, Instr.opcode, Opcode.pattern, Instr.operandBits, BitVec.or_assoc] <;> rfl

/-- Each field of a command's word reads the operand placed there: the fields of a format do not overlap (R84). -/
theorem operands_encode (i : Instr) : i.opcode.operands (encode i) = i := by
  rw [encode_eq_pattern_or]
  cases i <;>
    simp [Instr.opcode, Opcode.operands, Instr.operandBits, field_or, field_pattern, field_placed_same,
      field_placed_disjoint]

theorem decode_encode (i : Instr) : decode (encode i) = .ok i := by
  obtain ⟨hop, hmatch⟩ := Laws.EncodeOpcode.all i
  rw [decode_of_match hop hmatch, operands_encode]

@[simp] theorem opcode_operands (op : Opcode) (w : Word) : (op.operands w).opcode = op := by
  cases op <;> rfl

/-- The operand fields of a row are exactly the bits that its mask leaves out (R93). -/
theorem operandBits_operands (op : Opcode) (w : Word) : (op.operands w).operandBits = w &&& ~~~op.mask := by
  cases op <;>
    simp only [Opcode.operands, Instr.operandBits, placed_field, ← BitVec.and_or_distrib_left, Opcode.mask] <;>
    simp [placed]

theorem and_or_and_not (w m : Word) : w &&& m ||| w &&& ~~~m = w := by
  rw [← BitVec.and_or_distrib_left, BitVec.or_not_self, BitVec.and_allOnes]

/-- A word that matches its row is the word of the command read from it (R95). -/
theorem encode_operands {op : Opcode} {w : Word} (h : w &&& op.mask = op.pattern) : encode (op.operands w) = w := by
  rw [encode_eq_pattern_or, opcode_operands, operandBits_operands, ← h, and_or_and_not]

theorem encode_of_decode {w : Word} {i : Instr} (h : decode w = .ok i) : encode i = w := by
  obtain ⟨op, hmatch, rfl⟩ := decode_eq_ok h
  exact encode_operands hmatch

theorem decode_injective {w w' : Word} {i : Instr} (h : decode w = .ok i) (h' : decode w' = .ok i) : w = w' := by
  rw [← encode_of_decode h, encode_of_decode h']

/-- Settles O1, by running the decoder on each word. -/
theorem decodeReadsOneWordOfEachRow : Obligations.DecodeReadsOneWordOfEachRow := by
  unfold Obligations.DecodeReadsOneWordOfEachRow
  decide

/-- Settles O2: the word selects its own row, and each field of the row reads its operand back. -/
theorem decodeOfEncodeIsTheCommand : Obligations.DecodeOfEncodeIsTheCommand :=
  decode_encode

end Sys2Proof

namespace Sys2Proof.Machine

/-! ### A step on a presented word (R94, R95, R97) -/

section Step

variable {s : State} {w : Word} {rest : List Input} (hs : s.inputs = .command w :: rest)
include hs

theorem step_of_decode_ok {i : Instr} (h : decode w = .ok i) : step s = exec i { s with inputs := rest } := by
  rw [step_command s w rest hs, issue, h]

/-- Both reasons for a rejection raise IllegalCommand (R172). -/
theorem step_of_decode_error {why : Reject} (h : decode w = .error why) :
    step s = .next { s with inputs := rest, responses := s.responses ++ [0x80000001] } := by
  rw [step_command s w rest hs, issue, h]
  rfl

end Step

theorem opcodeOf_reserved {w : Word} (h : w >>> 28 = 0x0 ∨ w >>> 28 = 0xD ∨ w >>> 28 = 0xE ∨ w >>> 28 = 0xF) :
    opcodeOf (field w 28 4) = none := by
  rw [field_opcode_eq_setWidth]
  obtain h | h | h | h := h <;> rw [h] <;> rfl

/-- Settles O3: the reserved opcodes select no row, and RDST leaves the engine as it is. -/
theorem reservedOpcodesRaiseIllegalCommand : Obligations.ReservedOpcodesRaiseIllegalCommand := by
  constructor
  · intro s w rest hs hop
    exact step_of_decode_error hs (decode_of_reservedOpcode (opcodeOf_reserved hop))
  · intro s t h
    cases h
    rfl

/-- Settles O4: a word of a row's opcode is rejected unless it matches the row, and then encoding its command gives it
back, so that no other word means this command. -/
theorem setReservedBitsRaiseIllegalCommand : Obligations.SetReservedBitsRaiseIllegalCommand := by
  constructor
  · intro row hrow s w rest hs hshift
    obtain ⟨op, -, rfl⟩ : ∃ op ∈ Opcode.all, op.row = row := List.mem_map.1 hrow
    have hop : opcodeOf (field w 28 4) = some op := opcodeOf_of_shift hshift
    constructor
    · intro hbits
      exact step_of_decode_error hs (decode_of_reservedBit hop hbits)
    · intro hmatch
      have hdecode := decode_of_match hop hmatch
      exact ⟨op.operands w, hdecode, encode_operands hmatch, step_of_decode_ok hs hdecode⟩
  · intro w w' i h h'
    exact decode_injective h h'

/-- Settles O5, by the step on a word that decodes. -/
theorem stepRunsTheDecodedCommand : Obligations.StepRunsTheDecodedCommand := by
  intro s w rest i hs h
  exact step_of_decode_ok hs h

/-! ### Response words (R96, R171) -/

@[simp] theorem normalWord_toNat (v : Payload) : (normalWord v).toNat = v.toNat :=
  BitVec.toNat_setWidth_of_le (by decide)

theorem normalWord_bit31 (v : Payload) : (normalWord v).getLsbD 31 = false := by
  simp [normalWord]

theorem FaultKind.word_bit31 (f : FaultKind) : f.word.getLsbD 31 = true := by
  cases f <;> rfl

/-- What may stand on the response port: a word with bit 31 clear, or one of the four fault words (R96, R171). -/
def IsResponse (r : Word) : Prop :=
  r.getLsbD 31 = false ∨ r = 0x80000001 ∨ r = 0x80000002 ∨ r = 0x80000003 ∨ r = 0x80000004

theorem isResponse_normalWord (v : Payload) : IsResponse (normalWord v) := .inl (normalWord_bit31 v)

theorem isResponse_faultWord (f : FaultKind) : IsResponse f.word := by
  cases f with
  | illegalCommand => exact .inr (.inl rfl)
  | badOperand => exact .inr (.inr (.inl rfl))
  | notConfigured => exact .inr (.inr (.inr (.inl rfl)))
  | invalidSymbol => exact .inr (.inr (.inr (.inr rfl)))

/-- Every command answers exactly one word (R96, R202). -/
theorem exec_answers (i : Instr) (s : State) : ∃ e r, Answers i s e r ∧ IsResponse r := by
  cases h : result i s.engine with
  | ok p => exact ⟨p.1, _, exec_of_ok i s p.1 p.2 h, isResponse_normalWord p.2⟩
  | error f => exact ⟨s.engine, _, exec_of_error i s f h, isResponse_faultWord f⟩

/-- So does every step on a command word, whether the word decodes or not (R96, R172). -/
theorem step_answers {s : State} {w : Word} {rest : List Input} (hs : s.inputs = .command w :: rest) :
    ∃ e r, step s = .next { engine := e, inputs := rest, responses := s.responses ++ [r] } ∧ IsResponse r := by
  cases h : decode w with
  | ok i =>
    obtain ⟨e, r, hexec, hr⟩ := exec_answers i { s with inputs := rest }
    exact ⟨e, r, (step_of_decode_ok hs h).trans hexec, hr⟩
  | error why => exact ⟨s.engine, _, step_of_decode_error hs h, isResponse_faultWord .illegalCommand⟩

theorem step_of_reset {s : State} {rest : List Input} (hs : s.inputs = .reset :: rest) :
    step s = .next { s with inputs := rest, engine := Engine.reset } := by
  rw [step, hs]
  rfl

/-- What a run over all its inputs leaves behind: no input, the earlier answers in front, and one answer more for
each input that is no pulse of rst. -/
def RunAnswers (s t : State) : Prop :=
  t.inputs = [] ∧ s.responses <+: t.responses ∧
  t.responses.length = s.responses.length + (s.inputs.filter fun i => decide (i ≠ .reset)).length

section RunAnswers

variable {s t : State} {e : Engine} {rest : List Input}

theorem RunAnswers.of_reset (hs : s.inputs = .reset :: rest) (h : RunAnswers ⟨e, rest, s.responses⟩ t) :
    RunAnswers s t := by
  obtain ⟨hdone, hearlier, hlength⟩ := h
  refine ⟨hdone, hearlier, ?_⟩
  rw [hlength, hs]
  simp

theorem RunAnswers.of_command {w r : Word} (hs : s.inputs = .command w :: rest)
    (h : RunAnswers ⟨e, rest, s.responses ++ [r]⟩ t) : RunAnswers s t := by
  obtain ⟨hdone, hearlier, hlength⟩ := h
  refine ⟨hdone, (List.prefix_append _ _).trans hearlier, ?_⟩
  rw [hlength, hs]
  simp
  omega

end RunAnswers

theorem run_answers (inputs : List Input) (s : State) (hs : s.inputs = inputs) :
    ∃ t : State, Sys2Proof.core.run inputs.length s = .next t ∧ RunAnswers s t := by
  induction inputs generalizing s with
  | nil => exact ⟨s, rfl, hs, List.prefix_rfl, by simp [hs]⟩
  | cons input rest ih =>
    cases input with
    | reset =>
      obtain ⟨t, hrun, ht⟩ := ih { s with inputs := rest, engine := Engine.reset } rfl
      exact ⟨t, (core_run_succ Sys2Proof.core _ s _ (step_of_reset hs)).trans hrun, ht.of_reset hs⟩
    | command w =>
      obtain ⟨e, r, hstep, -⟩ := step_answers hs
      obtain ⟨t, hrun, ht⟩ := ih { engine := e, inputs := rest, responses := s.responses ++ [r] } rfl
      exact ⟨t, (core_run_succ Sys2Proof.core _ s _ hstep).trans hrun, ht.of_command hs⟩

/-- Settles O8, by induction on the inputs that wait. -/
theorem runAnswersEveryCommand : Obligations.RunAnswersEveryCommand := by
  intro s
  exact run_answers s.inputs s rfl

/-! ### The range of a normal answer, by command (R96) -/

@[simp] theorem cellResult_toNat (c : Cell) : (cellResult c).toNat = c.toNat :=
  BitVec.toNat_setWidth_of_le (by decide)

@[simp] theorem symbolResult_toNat (y : Cell) : (symbolResult y).toNat = 0x41 + y.toNat := by
  simp only [symbolResult, BitVec.toNat_ofNat]
  omega

theorem readRefl_le (row : Fin 2) (x : Letter) : (readRefl row x).toNat ≤ 25 := by
  revert row x
  decide

theorem Engine.refl_le (e : Engine) (x : Letter) : (e.refl x).toNat ≤ 25 := by
  unfold Engine.refl
  split
  · exact readRefl_le 0 x
  · split
    · exact readRefl_le 1 x
    · exact cellOf_le x

theorem Engine.Inv.plug_wf {e : Engine} (h : e.Inv) (hv : e.vplg = true) : e.plug.wf = true := by
  obtain ⟨-, -, -, -, hplug⟩ := h
  exact hplug hv

theorem Engine.plugged_le {e : Engine} (h : e.plug.wf = true) (x : Letter) : (e.plugged x).toNat ≤ 25 :=
  (Memory.wf_iff _).1 h x

/-- Sub ends in a PLUG cell (R153). -/
theorem Engine.sub_le {e : Engine} (h : e.plug.wf = true) (c : Letter) : (e.sub c).toNat ≤ 25 :=
  Engine.plugged_le h _

theorem Engine.vplg_of_configured {e : Engine} (h : e.configured = true) : e.vplg = true := by
  simp only [Engine.configured, Bool.and_eq_true] at h
  exact h.2

theorem shownAt_lt {n lo : Nat} (x : BitVec n) (h : lo + n ≤ 25) : (shownAt lo x).toNat < 2 ^ 25 :=
  calc (shownAt lo x).toNat ≤ x.toNat * 2 ^ lo := by
        rw [shownAt, BitVec.toNat_shiftLeft, BitVec.toNat_setWidth, Nat.shiftLeft_eq]
        exact (Nat.mod_le _ _).trans (Nat.mul_le_mul_right _ (Nat.mod_le _ _))
    _ < 2 ^ n * 2 ^ lo := Nat.mul_lt_mul_of_pos_right x.isLt (Nat.two_pow_pos lo)
    _ = 2 ^ (lo + n) := by rw [← Nat.pow_add, Nat.add_comm]
    _ ≤ 2 ^ 25 := Nat.pow_le_pow_right (by decide) h

theorem or_lt {v v' : Payload} (h : v.toNat < 2 ^ 25) (h' : v'.toNat < 2 ^ 25) : (v ||| v').toNat < 2 ^ 25 := by
  rw [BitVec.toNat_or]
  exact Nat.or_lt_two_pow (n := 25) h h'

/-- The fields of the status word end at bit 24 (R156). -/
theorem Engine.status_lt (e : Engine) : e.status.toNat < 2 ^ 25 := by
  unfold Engine.status
  iterate 11 refine or_lt ?_ (shownAt_lt _ (by decide))
  exact shownAt_lt _ (by decide)

/-- The range of a normal answer of a command. -/
def AnswerRange (i : Instr) (r : Word) : Prop :=
  match i with
  | .pbclr | .pbpair _ _ | .ldrot _ _ _ _ | .ldref _ | .step | .turn _ => r = 0
  | .enc _ => 0x41 ≤ r.toNat ∧ r.toNat ≤ 0x5A
  | .xfwd _ _ | .xbwd _ _ | .xref _ | .xplg _ => r.toNat ≤ 25
  | .rdst => r.toNat < 2 ^ 25

theorem normalWord_cellResult_le {c : Cell} (h : c.toNat ≤ 25) : (normalWord (cellResult c)).toNat ≤ 25 := by
  rwa [normalWord_toNat, cellResult_toNat]

/-- The result of a command that ends normally lies in the command's range. -/
theorem result_answerRange {i : Instr} {e e' : Engine} {v : Payload} (hinv : e.Inv) (h : result i e = .ok (e', v)) :
    AnswerRange i (normalWord v) := by
  cases i with
  | pbclr =>
    obtain ⟨-, rfl⟩ := pbclrResult_ok h
    exact rfl
  | pbpair k v =>
    obtain ⟨a, b, -, -, -, -, rfl⟩ := pbpairResult_ok h
    exact rfl
  | ldrot slot sel pos ring =>
    obtain ⟨k, p, r, -, -, -, -, rfl⟩ := ldrotResult_ok h
    exact rfl
  | ldref ch =>
    obtain ⟨-, rfl⟩ := ldrefResult_ok h
    exact rfl
  | step =>
    obtain ⟨-, -, rfl⟩ := stepResult_ok h
    exact rfl
  | enc ch =>
    obtain ⟨c, -, hc, -, rfl⟩ := encResult_ok h
    have hwf : e.stepped.plug.wf = true := by
      rw [Engine.stepped_plug]
      exact hinv.plug_wf (Engine.vplg_of_configured hc)
    have hsub := Engine.sub_le hwf c
    rw [AnswerRange, normalWord_toNat, symbolResult_toNat]
    omega
  | rdst =>
    obtain ⟨-, rfl⟩ := rdstResult_ok h
    rw [AnswerRange, normalWord_toNat]
    exact e.status_lt
  | turn slot =>
    obtain ⟨k, -, -, -, rfl⟩ := turnResult_ok h
    exact rfl
  | xfwd slot x =>
    obtain ⟨k, c, -, -, -, -, rfl⟩ := probeResult_ok h
    exact normalWord_cellResult_le (cellOf_le _)
  | xbwd slot x =>
    obtain ⟨k, c, -, -, -, -, rfl⟩ := probeResult_ok h
    exact normalWord_cellResult_le (cellOf_le _)
  | xref x =>
    obtain ⟨c, -, -, -, rfl⟩ := xrefResult_ok h
    exact normalWord_cellResult_le (e.refl_le c)
  | xplg x =>
    obtain ⟨c, -, hv, -, rfl⟩ := xplgResult_ok h
    exact normalWord_cellResult_le (Engine.plugged_le (hinv.plug_wf hv) c)

/-- The one word a command answers is its result's or its fault's (R96). -/
theorem exec_response {i : Instr} {s t : State} {r : Word} (h : exec i s = .next t)
    (hr : t.responses = s.responses ++ [r]) :
    (∃ e v, result i s.engine = .ok (e, v) ∧ r = normalWord v) ∨
    (∃ f, result i s.engine = .error f ∧ r = f.word) := by
  obtain ⟨e, v, hok, rfl⟩ | ⟨f, herror, rfl⟩ := exec_next i s t h
  · exact .inl ⟨e, v, hok, List.singleton_inj.1 (List.append_cancel_left hr.symm)⟩
  · exact .inr ⟨f, herror, List.singleton_inj.1 (List.append_cancel_left hr.symm)⟩

theorem exec_answerRange {i : Instr} {s t : State} {r : Word} (hinv : s.engine.Inv) (h : exec i s = .next t)
    (hr : t.responses = s.responses ++ [r]) (hbit : r.getLsbD 31 = false) : AnswerRange i r := by
  obtain ⟨e, v, hok, rfl⟩ | ⟨f, -, rfl⟩ := exec_response h hr
  · exact result_answerRange hinv hok
  · rw [f.word_bit31] at hbit
    cases hbit

/-- Settles O9: the shape of a response from every step answering once, the range from the result of each command. -/
theorem responseWordHasTheShapeOfItsCommand : Obligations.ResponseWordHasTheShapeOfItsCommand := by
  constructor
  · intro s w rest hs
    obtain ⟨e, r, hstep, hr⟩ := step_answers hs
    exact ⟨_, r, hstep, rfl, rfl, hr⟩
  · intro i s t r hinv h hresponses hbit
    have hrange := exec_answerRange hinv h hresponses hbit
    cases i <;> exact hrange

/-! ### Operand faults (R92, R173, R175) -/

theorem isSome_slotOperand (b : BitVec 2) : (slotOperand b).isSome = WellFormed.slot b := by
  revert b
  decide

theorem isSome_letterOperand (x : BitVec 5) : (letterOperand x).isSome = WellFormed.code x := by
  revert x
  decide

theorem isSome_symbolOperand (ch : Byte) : (symbolOperand ch).isSome = WellFormed.symbol ch := by
  rw [Bool.eq_iff_iff, Option.isSome_iff_ne_none, Ne, symbolOperand_eq_none, WellFormed.symbol, Bool.and_eq_true,
    decide_eq_true_iff, decide_eq_true_iff]
  omega

/-- A result that is the operand fault `bad` exactly where the operands are ill-formed, and asks for flags otherwise. -/
inductive Result.ChecksOperands (bad : FaultKind) : Bool → Result → Prop
  | done (p : Engine × Payload) : ChecksOperands bad true (.ok p)
  | notConfigured : ChecksOperands bad true (.error .notConfigured)
  | illFormed : ChecksOperands bad false (.error bad)

theorem Result.ChecksOperands.guarded {bad : FaultKind} {p : Engine × Payload} (flag : Bool) :
    ChecksOperands bad true (if flag then .ok p else .error .notConfigured) := by
  cases flag with
  | false => exact .notConfigured
  | true => exact .done p

theorem Result.ChecksOperands.eq_error {bad : FaultKind} {r : Result} (h : ChecksOperands bad false r) :
    r = .error bad := by
  cases h
  rfl

theorem Result.ChecksOperands.eq_notConfigured {bad f : FaultKind} (h : ChecksOperands bad true (.error f)) :
    f = .notConfigured := by
  cases h
  rfl

open Result (ChecksOperands)

theorem pbpairResult_checksOperands (k v : BitVec 5) (e : Engine) :
    ChecksOperands .badOperand (WellFormed.code k && WellFormed.code v) (pbpairResult k v e) := by
  rw [← isSome_letterOperand, ← isSome_letterOperand, pbpairResult]
  cases letterOperand k with
  | none => exact .illFormed
  | some a =>
    cases letterOperand v with
    | none => exact .illFormed
    | some b => exact .guarded _

theorem ldrotResult_checksOperands (slot : BitVec 2) (sel : BitVec 3) (pos ring : BitVec 5) (e : Engine) :
    ChecksOperands .badOperand (WellFormed.slot slot && WellFormed.code pos && WellFormed.code ring)
      (ldrotResult slot sel pos ring e) := by
  rw [← isSome_slotOperand, ← isSome_letterOperand, ← isSome_letterOperand, ldrotResult]
  cases slotOperand slot with
  | none => exact .illFormed
  | some k =>
    cases letterOperand pos with
    | none => exact .illFormed
    | some p =>
      cases letterOperand ring with
      | none => exact .illFormed
      | some r => exact .done _

theorem encResult_checksOperands (ch : Byte) (e : Engine) :
    ChecksOperands .invalidSymbol (WellFormed.symbol ch) (encResult ch e) := by
  rw [← isSome_symbolOperand, encResult]
  cases symbolOperand ch with
  | none => exact .illFormed
  | some c => exact .guarded _

theorem turnResult_checksOperands (slot : BitVec 2) (e : Engine) :
    ChecksOperands .badOperand (WellFormed.slot slot) (turnResult slot e) := by
  rw [← isSome_slotOperand, turnResult]
  cases slotOperand slot with
  | none => exact .illFormed
  | some k => exact .guarded _

theorem probeResult_checksOperands (through : Rotor → Nat → Letter) (slot : BitVec 2) (x : BitVec 5) (e : Engine) :
    ChecksOperands .badOperand (WellFormed.slot slot && WellFormed.code x) (probeResult through slot x e) := by
  rw [← isSome_slotOperand, ← isSome_letterOperand, probeResult]
  cases slotOperand slot with
  | none => exact .illFormed
  | some k =>
    cases letterOperand x with
    | none => exact .illFormed
    | some c => exact .guarded _

theorem xrefResult_checksOperands (x : BitVec 5) (e : Engine) :
    ChecksOperands .badOperand (WellFormed.code x) (xrefResult x e) := by
  rw [← isSome_letterOperand, xrefResult]
  cases letterOperand x with
  | none => exact .illFormed
  | some c => exact .guarded _

theorem xplgResult_checksOperands (x : BitVec 5) (e : Engine) :
    ChecksOperands .badOperand (WellFormed.code x) (xplgResult x e) := by
  rw [← isSome_letterOperand, xplgResult]
  cases letterOperand x with
  | none => exact .illFormed
  | some c => exact .guarded _

/-- The fault of a command's ill-formed operands (R173, R175). -/
def operandFault : Instr → FaultKind
  | .enc _ => .invalidSymbol
  | _ => .badOperand

/-- Every command checks its operands before anything else (R176). -/
theorem result_checksOperands (i : Instr) (e : Engine) : ChecksOperands (operandFault i) i.wellFormed (result i e) := by
  cases i with
  | pbclr => exact .done _
  | pbpair k v => exact pbpairResult_checksOperands k v e
  | ldrot slot sel pos ring => exact ldrotResult_checksOperands slot sel pos ring e
  | ldref ch => exact .done _
  | step => exact .guarded _
  | enc ch => exact encResult_checksOperands ch e
  | rdst => exact .done _
  | turn slot => exact turnResult_checksOperands slot e
  | xfwd slot x => exact probeResult_checksOperands Rotor.fwd slot x e
  | xbwd slot x => exact probeResult_checksOperands Rotor.bwd slot x e
  | xref x => exact xrefResult_checksOperands x e
  | xplg x => exact xplgResult_checksOperands x e

theorem operandFault_cases (i : Instr) : operandFault i = .badOperand ∨ operandFault i = .invalidSymbol := by
  cases i with
  | enc ch => exact .inr rfl
  | _ => exact .inl rfl

theorem exec_of_illFormed {i : Instr} (h : i.wellFormed = false) (s : State) :
    AnswersOnly i s (operandFault i).word := by
  have hchecks := result_checksOperands i s.engine
  rw [h] at hchecks
  exact exec_of_error i s _ hchecks.eq_error

/-- A well-formed command answers a word with bit 31 clear or NotConfigured (R96, R174). -/
theorem answers_of_wellFormed {i : Instr} {s : State} {e : Engine} {r : Word} (h : i.wellFormed = true)
    (ha : Answers i s e r) : r.getLsbD 31 = false ∨ r = FaultKind.notConfigured.word := by
  obtain ⟨e', v, -, rfl⟩ | ⟨f, herror, rfl⟩ := exec_response ha rfl
  · exact .inl (normalWord_bit31 v)
  · have hchecks := result_checksOperands i s.engine
    rw [h, herror] at hchecks
    rw [hchecks.eq_notConfigured]
    exact .inr rfl

/-- Settles O12: the results that the operand check gives, read off the response word. -/
theorem operandFaultsAreTheIllFormedCommands : Obligations.OperandFaultsAreTheIllFormedCommands := by
  intro i s
  constructor
  · intro h
    have hexec := exec_of_illFormed h s
    obtain hfault | hfault := operandFault_cases i
    · rw [hfault] at hexec
      exact .inl hexec
    · rw [hfault] at hexec
      exact .inr hexec
  · intro h
    constructor
    · intro ha
      exact absurd (answers_of_wellFormed h ha) (by decide)
    · intro ha
      exact absurd (answers_of_wellFormed h ha) (by decide)

/-! ### The reflector identifier (R82, R131) -/

theorem refselOf_eq (id : Byte) :
    refselOf id = if id.toNat = 0x42 then 1 else if id.toNat = 0x43 then 2 else 0 := by
  simp only [refselOf, ← BitVec.toNat_inj]
  rfl

/-- Settles O34, from the code that LDREF writes and its never faulting. -/
theorem ldrefSelectsTheReflector : Obligations.LdrefSelectsTheReflector := by
  intro s ch
  rw [← refselOf_eq]
  exact exec_of_ok (.ldref ch) s _ _ rfl

/-! ### The text of a line (R98, R99) -/

/-- Settles O48, by running the assembler on each line. -/
theorem assemblerReadsTheLinesOfTheSyntax : Obligations.AssemblerReadsTheLinesOfTheSyntax := by
  unfold Obligations.AssemblerReadsTheLinesOfTheSyntax
  decide

end Sys2Proof.Machine

/-! PROOFS about the rotors (40_rotor.md): mounting and turning one slot, and the two passes of a rotor. -/

namespace Sys2Proof.Machine

/-! ### Naming a slot (R83) -/

@[simp] theorem slotOperand_number (k : Slot) : slotOperand k.number = some k := by
  cases k <;> rfl

theorem Engine.SlotHolds.exists_slot {e : Engine} {slot : BitVec 2} {r : Rotor} (h : e.SlotHolds slot r) :
    ∃ k : Slot, slot = k.number ∧ r = e.rotor k := by
  obtain ⟨hslot, hr⟩ | ⟨hslot, hr⟩ | ⟨hslot, hr⟩ := h
  · exact ⟨.left, hslot, hr⟩
  · exact ⟨.middle, hslot, hr⟩
  · exact ⟨.right, hslot, hr⟩

theorem Engine.Inv.rotor {e : Engine} (h : e.Inv) (k : Slot) : (e.rotor k).Inv := by
  obtain ⟨hleft, hmiddle, hright, -, -⟩ := h
  cases k with
  | left => exact hleft
  | middle => exact hmiddle
  | right => exact hright

@[simp] theorem Engine.rotor_setRotor_same (e : Engine) (k : Slot) (r : Rotor) : (e.setRotor k r).rotor k = r := by
  rw [Engine.rotor_setRotor, if_pos rfl]

@[simp] theorem Engine.setRotor_setRotor (e : Engine) (k : Slot) (r r' : Rotor) :
    (e.setRotor k r).setRotor k r' = e.setRotor k r' := by
  cases k <;> rfl

@[simp] theorem Engine.setRotor_rotor (e : Engine) (k : Slot) : e.setRotor k (e.rotor k) = e := by
  cases k <;> rfl

/-! ### LDROT and TURN (R111, R114, R115) -/

theorem exec_ldrot (s : State) (k : Slot) (sel : BitVec 3) (p g : Letter) :
    exec (.ldrot k.number sel (cellOf p) (cellOf g)) s =
      .next { s with engine := s.engine.setRotor k (Rotor.mounted sel p g), responses := s.responses ++ [0] } :=
  exec_of_ok _ s _ 0 (by simp [result, ldrotResult])

theorem exec_turn {s : State} {k : Slot} (hv : (s.engine.rotor k).valid = true) :
    exec (.turn k.number) s =
      .next { s with engine := s.engine.turnover k, responses := s.responses ++ [0] } :=
  exec_of_ok _ s _ 0 (by simp [result, turnResult, hv])

/-- Settles O26: an operand in 0..25 is the cell of a letter code, and that letter code is what LDROT mounts. -/
theorem ldrotMountsTheRotor : Obligations.LdrotMountsTheRotor := by
  intro s sel pos ring hpos hring
  obtain ⟨p, rfl, -⟩ := exists_cellOf pos hpos
  obtain ⟨g, rfl, -⟩ := exists_cellOf ring hring
  exact ⟨exec_ldrot s .left sel p g, exec_ldrot s .middle sel p g, exec_ldrot s .right sel p g⟩

/-- Settles O27, by the rule of TURN in each slot. -/
theorem turnAdvancesOneRotor : Obligations.TurnAdvancesOneRotor := by
  intro s
  exact ⟨exec_turn (k := .left), exec_turn (k := .middle), exec_turn (k := .right)⟩

/-! ### Turning one slot many times (R114) -/

theorem Rotor.turnedTimes_turned (r : Rotor) (n : Nat) : r.turned.turnedTimes n = r.turnedTimes (n + 1) := by
  induction n with
  | zero => rfl
  | succ n ih => rw [Rotor.turnedTimes, ih, ← Rotor.turnedTimes]

theorem Rotor.turnedTimes_eq {r : Rotor} (hpos : r.pos.toNat ≤ 25) (n : Nat) :
    r.turnedTimes n = { r with pos := cellOf (mod26 (r.pos.toNat + n)) } := by
  induction n with
  | zero =>
    obtain ⟨x, hx, -⟩ := exists_cellOf r.pos hpos
    rw [Rotor.turnedTimes, Nat.add_zero, hx, cellOf_toNat, mod26_letter, ← hx]
  | succ n ih =>
    have hstep : mod26 ((r.pos.toNat + n) % 26 + 1) = mod26 (r.pos.toNat + (n + 1)) :=
      Fin.ext (Nat.mod_add_mod _ 26 1)
    rw [Rotor.turnedTimes, ih, Rotor.turned, cellOf_toNat, mod26_val, hstep]

/-- One period of the position register. -/
theorem Rotor.turnedTimes_twentySix {r : Rotor} (hpos : r.pos.toNat ≤ 25) : r.turnedTimes 26 = r := by
  have hwrap : mod26 (r.pos.toNat + 26) = mod26 (r.pos.toNat + 0) := Fin.ext (Nat.add_mod_right _ 26)
  rw [Rotor.turnedTimes_eq hpos, hwrap, ← Rotor.turnedTimes_eq hpos, Rotor.turnedTimes]

/-- `n` TURNs of a loaded slot complete, turn its rotor `n` times and answer 0 each. -/
theorem execList_turns (n : Nat) {s : State} {k : Slot} (hv : (s.engine.rotor k).valid = true) :
    execList (List.replicate n (.turn k.number)) s =
      .next { s with
        engine := s.engine.setRotor k ((s.engine.rotor k).turnedTimes n)
        responses := s.responses ++ List.replicate n 0 } := by
  induction n generalizing s with
  | zero => simp [execList, Rotor.turnedTimes]
  | succ n ih =>
    have hv' : ((s.engine.turnover k).rotor k).valid = true := by simpa [Engine.turnover] using hv
    rw [List.replicate_succ, execList_cons (exec_turn hv), ih hv']
    simp [Engine.turnover, Rotor.turnedTimes_turned, List.replicate_succ]

/-- Settles O28: twenty-six turns are one period of the position of the slot's rotor. -/
theorem twentySixTurnsRestoreTheEngine : Obligations.TwentySixTurnsRestoreTheEngine := by
  intro s slot r hinv hholds hv
  obtain ⟨k, rfl, rfl⟩ := hholds.exists_slot
  obtain ⟨hpos, -⟩ := hinv.rotor k hv
  rw [execList_turns 26 hv, Rotor.turnedTimes_twentySix hpos, Engine.setRotor_rotor]

/-! ### XFWD and XBWD (R112, R116, R117) -/

theorem normalWord_cellResult_cellOf (y : Letter) : normalWord (cellResult (cellOf y)) = BitVec.ofNat 32 y.val := by
  apply BitVec.eq_of_toNat_eq
  rw [normalWord_toNat, cellResult_toNat, cellOf_toNat, BitVec.toNat_ofNat]
  omega

/-- A command whose result is a probe of a loaded slot answers one pass through its rotor and leaves the engine as it
is. -/
theorem exec_probe {i : Instr} {s : State} {slot : BitVec 2} {x : BitVec 5} {r : Rotor} (through : Rotor → Nat → Letter)
    (hi : result i s.engine = probeResult through slot x s.engine)
    (hholds : s.engine.SlotHolds slot r) (hv : r.valid = true) (hx : x.toNat ≤ 25) :
    exec i s = .next { s with responses := s.responses ++ [BitVec.ofNat 32 (through r x.toNat).val] } := by
  obtain ⟨k, rfl, rfl⟩ := hholds.exists_slot
  obtain ⟨c, rfl, hc⟩ := exists_cellOf x hx
  rw [← hc, ← normalWord_cellResult_cellOf]
  exact exec_of_ok i s s.engine _ (by simp [hi, probeResult, hv])

/-- Settles O29: a probe through RotFwd, whose formula R112 gives. -/
theorem xfwdAnswersTheForwardPass : Obligations.XfwdAnswersTheForwardPass := by
  intro s slot x r hholds hv hx
  exact exec_probe Rotor.fwd rfl hholds hv hx

/-- Settles O30: a probe through RotBwd, whose formula R112 gives. -/
theorem xbwdAnswersTheBackwardPass : Obligations.XbwdAnswersTheBackwardPass := by
  intro s slot x r hholds hv hx
  exact exec_probe Rotor.bwd rfl hholds hv hx

/-! ### The passes undo each other (R118) -/

/-- A pass through a rotor by one row of a wiring bank: both RotFwd and RotBwd are of this form (R112). -/
def Rotor.pass (r : Rotor) (row : Letter → Cell) (x : Nat) : Letter := r.offsetOut (row (r.offsetIn x)).toNat

theorem Rotor.fwd_eq_pass (r : Rotor) : r.fwd = r.pass (readWfwd r.sel) := rfl

theorem Rotor.bwd_eq_pass (r : Rotor) : r.bwd = r.pass (readWbwd r.sel) := rfl

section Passes

variable {r : Rotor} (hpos : r.pos.toNat ≤ 25) (hring : r.ring.toNat ≤ 25)
include hpos hring

/-- Within the ranges neither subtraction of R112 goes below zero, so the two offsets cancel modulo 26. -/
theorem Rotor.offsetIn_offsetOut (t : Nat) : r.offsetIn (r.offsetOut t).val = mod26 t := by
  apply Fin.ext
  simp only [Rotor.offsetIn, Rotor.offsetOut, mod26_val]
  omega

theorem Rotor.offsetOut_offsetIn (x : Nat) : r.offsetOut (r.offsetIn x).val = mod26 x := by
  apply Fin.ext
  simp only [Rotor.offsetIn, Rotor.offsetOut, mod26_val]
  omega

/-- A pass by `row'` undoes a pass by `row` when the row `row'` undoes the row `row`. -/
theorem Rotor.pass_pass {row row' : Letter → Cell} (hrow : ∀ i, row' (mod26 (row i).toNat) = cellOf i) (x : Letter) :
    r.pass row' (r.pass row x.val).val = x :=
  calc r.pass row' (r.pass row x.val).val
      = r.offsetOut (row' (mod26 (row (r.offsetIn x.val)).toNat)).toNat := by
        rw [Rotor.pass, Rotor.pass, Rotor.offsetIn_offsetOut hpos hring]
    _ = r.offsetOut (r.offsetIn x.val).val := by rw [hrow, cellOf_toNat]
    _ = x := by rw [Rotor.offsetOut_offsetIn hpos hring, mod26_letter]

theorem Rotor.bwd_fwd (x : Letter) : r.bwd (r.fwd x.val).val = x := by
  rw [Rotor.fwd_eq_pass, Rotor.bwd_eq_pass]
  exact Rotor.pass_pass hpos hring (readWbwd_readWfwd r.sel) x

theorem Rotor.fwd_bwd (x : Letter) : r.fwd (r.bwd x.val).val = x := by
  rw [Rotor.fwd_eq_pass, Rotor.bwd_eq_pass]
  exact Rotor.pass_pass hpos hring (readWfwd_readWbwd r.sel) x

theorem Rotor.fwd_bijective : Function.Bijective (fun x : Letter => r.fwd x.val) :=
  Function.bijective_iff_has_inverse.2 ⟨fun x => r.bwd x.val, Rotor.bwd_fwd hpos hring, Rotor.fwd_bwd hpos hring⟩

theorem Rotor.bwd_bijective : Function.Bijective (fun x : Letter => r.bwd x.val) :=
  Function.bijective_iff_has_inverse.2 ⟨fun x => r.fwd x.val, Rotor.fwd_bwd hpos hring, Rotor.bwd_fwd hpos hring⟩

end Passes

/-- Settles O32: the offsets cancel and the two wiring rows undo each other, so each pass has the other as its
inverse. -/
theorem rotorPassesAreInverse : Obligations.RotorPassesAreInverse := by
  intro r hpos hring
  exact ⟨fun x => ⟨Rotor.bwd_fwd hpos hring x, Rotor.fwd_bwd hpos hring x⟩, Rotor.fwd_bijective hpos hring,
    Rotor.bwd_bijective hpos hring⟩

end Sys2Proof.Machine

/-! PROOFS about the reflector (41_reflector.md): its two banks, and Refl for each value of REFSEL. -/

namespace Sys2Proof.Machine

/-! ### The reflector banks (R57, R59) -/

/-- Each row of REFL undoes itself (R59), read off the two rows. -/
theorem readRefl_readRefl (row : Fin 2) (x : Letter) : readRefl row (mod26 (readRefl row x).toNat) = cellOf x := by
  revert row x
  decide

/-- Neither row of REFL maps a letter to itself (R59), read off the two rows. -/
theorem readRefl_ne_cellOf (row : Fin 2) (x : Letter) : readRefl row x ≠ cellOf x := by
  revert row x
  decide

/-! ### Refl by the value of REFSEL (R58, R130) -/

theorem Engine.refl_of_mounted {e : Engine} (h : e.refsel = 1 ∨ e.refsel = 2) : ∃ row, e.refl = readRefl row := by
  obtain h | h := h
  · exact ⟨0, funext fun x => by simp [Engine.refl, h]⟩
  · exact ⟨1, funext fun x => by simp [Engine.refl, h]⟩

theorem Engine.refl_of_identity {e : Engine} (h : ¬(e.refsel = 1 ∨ e.refsel = 2)) : e.refl = cellOf := by
  obtain ⟨hB, hC⟩ := not_or.1 h
  exact funext fun x => by rw [Engine.refl, if_neg hB, if_neg hC]

/-! ### Refl is an involution (R133) -/

/-- Refl undoes itself for every REFSEL: for 3 the model's Refl is the identity (assumption log 7). -/
theorem Engine.refl_refl (e : Engine) (x : Letter) : e.refl (mod26 (e.refl x).toNat) = cellOf x := by
  by_cases h : e.refsel = 1 ∨ e.refsel = 2
  · obtain ⟨row, hrefl⟩ := Engine.refl_of_mounted h
    rw [hrefl, readRefl_readRefl]
  · rw [Engine.refl_of_identity h, cellOf_toNat, mod26_letter]

theorem Engine.refl_symm {e : Engine} {x y : Letter} (h : e.refl x = cellOf y) : e.refl y = cellOf x := by
  have hback := e.refl_refl x
  rwa [h, cellOf_toNat, mod26_letter] at hback

theorem Engine.refl_ne_cellOf {e : Engine} (h : e.refsel = 1 ∨ e.refsel = 2) (x : Letter) : e.refl x ≠ cellOf x := by
  obtain ⟨row, hrefl⟩ := Engine.refl_of_mounted h
  rw [hrefl]
  exact readRefl_ne_cellOf row x

/-- Settles O36: Refl answers a letter code, undoes itself, and has the fixed points that its row or the identity
has. -/
theorem reflectorIsAnInvolution : Obligations.ReflectorIsAnInvolution := by
  intro e x _
  obtain ⟨y, hy, -⟩ := exists_cellOf (e.refl x) (e.refl_le x)
  refine ⟨y, hy, Engine.refl_symm hy, ?_, ?_⟩
  · rintro hmounted rfl
    exact Engine.refl_ne_cellOf hmounted y hy
  · intro hzero
    have hidentity : e.refl = cellOf := Engine.refl_of_identity (by simp [hzero])
    rw [hidentity, cellOf_inj] at hy
    exact hy.symm

end Sys2Proof.Machine

/-! PROOFS about the plugboard (42_plugboard.md): its three commands, PLUG with no letter reused, and a reused
letter. -/

namespace Sys2Proof.Machine

/-! ### PBCLR, PBPAIR and XPLG (R141, R142, R143) -/

theorem exec_pbclr (s : State) :
    exec .pbclr s =
      .next { s with
        engine := { s.engine with plug := Memory.identity, vplg := true }
        responses := s.responses ++ [0] } :=
  exec_of_ok .pbclr s _ 0 rfl

theorem exec_pbpair {s : State} (hv : s.engine.vplg = true) (a b : Letter) :
    exec (.pbpair (cellOf a) (cellOf b)) s =
      .next { s with
        engine := { s.engine with plug := s.engine.plug.pair a b }
        responses := s.responses ++ [0] } :=
  exec_of_ok _ s _ 0 (by simp [result, pbpairResult, hv])

theorem normalWord_cellResult (c : Cell) : normalWord (cellResult c) = c.setWidth 32 := by
  apply BitVec.eq_of_toNat_eq
  rw [normalWord_toNat, cellResult_toNat, BitVec.toNat_setWidth_of_le (by decide)]

theorem exec_xplg {s : State} (hv : s.engine.vplg = true) (c : Letter) :
    exec (.xplg (cellOf c)) s = .next { s with responses := s.responses ++ [(s.engine.plug.read c).setWidth 32] } := by
  rw [← normalWord_cellResult]
  exact exec_of_ok _ s s.engine _ (by simp [result, xplgResult, Engine.plugged, hv])

/-- Settles O20, by the rule of PBCLR. -/
theorem pbclrWritesTheIdentity : Obligations.PbclrWritesTheIdentity := by
  intro s
  exact ⟨Memory.identity, fun x => by rw [Memory.read_identity, cellOf_toNat], exec_pbclr s⟩

/-- Settles O22: an operand in 0..25 is the cell of a letter code, and that letter code is the index read. -/
theorem xplgAnswersTheCell : Obligations.XplgAnswersTheCell := by
  intro s x hx hv
  obtain ⟨c, rfl, hc⟩ := exists_cellOf x (Nat.le_of_lt_succ hx)
  have hindex : (⟨(cellOf c).toNat, hx⟩ : Letter) = c := Fin.ext hc.symm
  rw [hindex]
  exact exec_xplg hv c

/-! ### The two writes of a pair (R142) -/

/-- The two cells of a pair hold each other's index, and the order of the two writes does not show, also when they are
one cell. -/
theorem Memory.read_pair_left_first (m : Memory) (a b x : Letter) :
    (m.pair a b).read x = if x = a then cellOf b else if x = b then cellOf a else m.read x := by
  rw [Memory.read_pair]
  obtain rfl | ha := eq_or_ne x a
  · rw [if_pos rfl, if_pos rfl]
    split
    · next hb => rw [hb]
    · rfl
  · rw [if_neg ha, if_neg ha]

@[simp] theorem Memory.read_pair_left (m : Memory) (a b : Letter) : (m.pair a b).read a = cellOf b := by
  rw [Memory.read_pair_left_first, if_pos rfl]

@[simp] theorem Memory.read_pair_right (m : Memory) (a b : Letter) : (m.pair a b).read b = cellOf a := by
  rw [Memory.read_pair, if_pos rfl]

theorem Memory.read_pair_of_ne {m : Memory} {a b x : Letter} (ha : x ≠ a) (hb : x ≠ b) :
    (m.pair a b).read x = m.read x := by
  rw [Memory.read_pair, if_neg hb, if_neg ha]

/-- Settles O21: the operands are the cells of two letter codes, and the new table is their pair on the old one. -/
theorem pbpairWritesItsTwoCells : Obligations.PbpairWritesItsTwoCells := by
  intro s k v hk hv hvplg
  obtain ⟨a, rfl, -⟩ := exists_cellOf k hk
  obtain ⟨b, rfl, -⟩ := exists_cellOf v hv
  refine ⟨s.engine.plug.pair a b, fun x => ?_, exec_pbpair hvplg a b⟩
  simp only [Memory.read_pair_left_first, cellOf_toNat, Fin.ext_iff]

/-! ### Involutions on the letter codes (R145) -/

theorem Memory.Involutive.symm {m : Memory} (h : m.Involutive) {x y : Letter} (hxy : m.read x = cellOf y) :
    m.read y = cellOf x := by
  obtain ⟨z, hz, hback⟩ := h x
  obtain rfl : y = z := (cellOf_inj y z).1 (hxy.symm.trans hz)
  exact hback

/-- An involution is a bijection: the one cell that holds `y` is the one whose index the cell `y` holds. -/
theorem Memory.Involutive.existsUnique_read {m : Memory} (h : m.Involutive) (y : Letter) :
    ∃! x : Letter, m.read x = cellOf y := by
  obtain ⟨x, hx, hback⟩ := h y
  refine ⟨x, hback, fun x' hx' => ?_⟩
  exact (cellOf_inj x' x).1 ((h.symm hx').symm.trans hx)

/-! ### A replay with no letter reused (R145) -/

/-- No letter code of the one pair is in the other (R145). -/
abbrev ShareNoLetter (p q : Letter × Letter) : Prop := p.1 ≠ q.1 ∧ p.1 ≠ q.2 ∧ p.2 ≠ q.1 ∧ p.2 ≠ q.2

theorem ShareNoLetter.fst_unpaired {p q : Letter × Letter} (h : ShareNoLetter p q) : p.1 ≠ q.1 ∧ p.1 ≠ q.2 := by
  obtain ⟨hff, hfs, -⟩ := h
  exact ⟨hff, hfs⟩

theorem ShareNoLetter.snd_unpaired {p q : Letter × Letter} (h : ShareNoLetter p q) : p.2 ≠ q.1 ∧ p.2 ≠ q.2 := by
  obtain ⟨-, -, hsnd⟩ := h
  exact hsnd

theorem Memory.replay_cons (m : Memory) (p : Letter × Letter) (ps : List (Letter × Letter)) :
    m.replay (p :: ps) = (m.pair p.1 p.2).replay ps := rfl

/-- The replay leaves the cell of a letter code in none of its pairs as it was. -/
theorem Memory.read_replay_of_unpaired {ps : List (Letter × Letter)} {x : Letter} (hx : ∀ p ∈ ps, x ≠ p.1 ∧ x ≠ p.2)
    (m : Memory) : (m.replay ps).read x = m.read x := by
  induction ps generalizing m with
  | nil => rfl
  | cons p ps ih =>
    rw [List.forall_mem_cons] at hx
    obtain ⟨⟨hfst, hsnd⟩, hrest⟩ := hx
    rw [Memory.replay_cons, ih hrest, Memory.read_pair_of_ne hfst hsnd]

/-- With no letter code reused, the two writes of each pair of the replay are never overwritten. -/
theorem Memory.read_replay_of_mem {ps : List (Letter × Letter)} (hps : ps.Pairwise ShareNoLetter) {p : Letter × Letter}
    (hp : p ∈ ps) (m : Memory) : (m.replay ps).read p.1 = cellOf p.2 ∧ (m.replay ps).read p.2 = cellOf p.1 := by
  induction hps generalizing m with
  | nil => cases hp
  | @cons q qs hq _ ih =>
    rw [Memory.replay_cons]
    obtain rfl | hp := List.mem_cons.1 hp
    · have hfst : ∀ q ∈ qs, p.1 ≠ q.1 ∧ p.1 ≠ q.2 := fun q hmem => (hq q hmem).fst_unpaired
      have hsnd : ∀ q ∈ qs, p.2 ≠ q.1 ∧ p.2 ≠ q.2 := fun q hmem => (hq q hmem).snd_unpaired
      rw [Memory.read_replay_of_unpaired hfst, Memory.read_replay_of_unpaired hsnd]
      exact ⟨Memory.read_pair_left m p.1 p.2, Memory.read_pair_right m p.1 p.2⟩
    · exact ih hp _

/-- A letter code is in one of the pairs, whose cells hold each other's index, or its cell is still the identity's. -/
theorem Memory.involutive_replay_identity {ps : List (Letter × Letter)} (hps : ps.Pairwise ShareNoLetter) :
    (Memory.identity.replay ps).Involutive := by
  intro x
  by_cases hx : ∃ p ∈ ps, x = p.1 ∨ x = p.2
  · obtain ⟨p, hp, rfl | rfl⟩ := hx
    · exact ⟨p.2, Memory.read_replay_of_mem hps hp _⟩
    · exact ⟨p.1, (Memory.read_replay_of_mem hps hp _).symm⟩
  · have hunpaired : ∀ p ∈ ps, x ≠ p.1 ∧ x ≠ p.2 := fun p hp => not_or.1 fun h => hx ⟨p, hp, h⟩
    have hfixed : (Memory.identity.replay ps).read x = cellOf x := by
      rw [Memory.read_replay_of_unpaired hunpaired, Memory.read_identity]
    exact ⟨x, hfixed, hfixed⟩

/-- Settles O24: the run leaves the replay of its pairs on the identity, and each pair stands in it as written. -/
theorem plugIsAnInvolutionWithoutReuse : Obligations.PlugIsAnInvolutionWithoutReuse := by
  intro cmds s hne hpairs
  obtain ⟨t, hrun, hplug⟩ := execList_pbclr_plug hne s
  have hinvolutive := Memory.involutive_replay_identity hpairs
  rw [← hplug] at hinvolutive
  refine ⟨t, hrun, hinvolutive, hinvolutive.existsUnique_read, fun p hp hself => ?_⟩
  obtain ⟨-, hsnd⟩ := Memory.read_replay_of_mem hpairs hp Memory.identity
  rw [hplug, ← hsnd, hself]

/-! ### A reused letter (R144) -/

theorem execList_pbclr_pbpair_pbpair (s : State) (a b a' b' : Letter) :
    execList [.pbclr, .pbpair (cellOf a) (cellOf b), .pbpair (cellOf a') (cellOf b')] s =
      .next { s with
        engine := { s.engine with plug := (Memory.identity.pair a b).pair a' b', vplg := true }
        responses := s.responses ++ [0, 0, 0] } := by
  rw [execList_cons (exec_pbclr s), execList_cons (exec_pbpair rfl a b), execList_cons (exec_pbpair rfl a' b')]
  simp [execList]

/-- The first partner `b` of `a` still points at `a`: its cell is not written again. -/
theorem Memory.read_pair_pair_formerPartner {a b c : Letter} (hab : a ≠ b) (hbc : b ≠ c) (m : Memory) :
    ((m.pair a b).pair a c).read b = cellOf a := by
  rw [Memory.read_pair_of_ne hab.symm hbc, Memory.read_pair_right]

theorem Memory.read_pair_pair_other {a b c x : Letter} (hxa : x ≠ a) (hxb : x ≠ b) (hxc : x ≠ c) (m : Memory) :
    ((m.pair a b).pair a c).read x = m.read x := by
  rw [Memory.read_pair_of_ne hxa hxc, Memory.read_pair_of_ne hxa hxb]

/-- No cell holds the first partner `b` any more: `a` holds `c`, both partners hold `a`, and every other cell holds its
own index. -/
theorem Memory.read_pair_pair_ne_formerPartner {a b c : Letter} (hab : a ≠ b) (hbc : b ≠ c) (x : Letter) :
    ((Memory.identity.pair a b).pair a c).read x ≠ cellOf b := by
  by_cases hxa : x = a
  · rw [hxa, Memory.read_pair_left, Ne, cellOf_inj]
    exact hbc.symm
  by_cases hxb : x = b
  · rw [hxb, Memory.read_pair_pair_formerPartner hab hbc, Ne, cellOf_inj]
    exact hab
  by_cases hxc : x = c
  · rw [hxc, Memory.read_pair_right, Ne, cellOf_inj]
    exact hab
  · rw [Memory.read_pair_pair_other hxa hxb hxc, Memory.read_identity, Ne, cellOf_inj]
    exact hxb

/-- Settles O25: the table is that of the two pairs, and it is no involution because `b` points at `a` and no letter
code points back at `b`. -/
theorem reusedLetterLeavesAStalePartner : Obligations.ReusedLetterLeavesAStalePartner := by
  intro s a b c hab _ hbc
  have hstale := Memory.read_pair_pair_formerPartner hab hbc Memory.identity
  have hmissing := Memory.read_pair_pair_ne_formerPartner hab hbc
  refine ⟨_, execList_pbclr_pbpair_pbpair s a b a c, Memory.read_pair_left _ a c, Memory.read_pair_right _ a c, hstale,
    ?_, hmissing, ?_⟩
  · intro x hxa hxb hxc
    rw [Memory.read_pair_pair_other hxa hxb hxc, Memory.read_identity]
  · intro hinvolutive
    exact hmissing a (hinvolutive.symm hstale)

end Sys2Proof.Machine

/-! PROOFS about the machine family (43_enigma.md): the step of the three rotors, encipherment, and the status word. -/

namespace Sys2Proof.Machine

/-! ### STEP (R151, R155) -/

theorem Engine.rotorsValid_iff (e : Engine) :
    e.rotorsValid = true ↔ e.left.valid = true ∧ e.middle.valid = true ∧ e.right.valid = true := by
  simp [Engine.rotorsValid, and_assoc]

theorem Rotor.atNotch_iff (r : Rotor) : r.atNotch = true ↔ r.pos = r.notchA ∨ r.pos = r.notchB := by
  simp [Rotor.atNotch]

theorem exec_step {s : State} (hv : s.engine.rotorsValid = true) :
    exec .step s = .next { s with engine := s.engine.stepped, responses := s.responses ++ [0] } :=
  exec_of_ok .step s _ 0 (if_pos hv)

theorem exec_step_of_unloaded {s : State} (hv : s.engine.rotorsValid = false) :
    exec .step s = .next { s with responses := s.responses ++ [FaultKind.notConfigured.word] } :=
  exec_of_error .step s _ (by simp [result, stepResult, hv])

/-- Settles O37: the parallel form of Step, with each bank's turns as one addition to its position. -/
theorem stepMovesTheRotors : Obligations.StepMovesTheRotors := by
  intro s hinv hl hm hr
  have hlpos : s.engine.left.pos.toNat ≤ 25 := (hinv.rotor .left hl).1
  have hmpos : s.engine.middle.pos.toNat ≤ 25 := (hinv.rotor .middle hm).1
  have hv : s.engine.rotorsValid = true := s.engine.rotorsValid_iff.2 ⟨hl, hm, hr⟩
  rw [exec_step hv, Engine.stepped_eq, Rotor.turnedTimes_eq hlpos, Rotor.turnedTimes_eq hmpos, ← Nat.add_assoc]
  simp only [Rotor.atNotch_iff]
  rfl

/-! ### Stepping and the registers it does not read (R151) -/

/-- The bank with another wiring and another ring setting. -/
def Rotor.rewired (r : Rotor) (sel : BitVec 3) (ring : Cell) : Rotor := { r with sel := sel, ring := ring }

theorem Rotor.rewired_turned (r : Rotor) (sel : BitVec 3) (ring : Cell) :
    (r.rewired sel ring).turned = r.turned.rewired sel ring :=
  rfl

theorem Rotor.rewired_turnedTimes (r : Rotor) (sel : BitVec 3) (ring : Cell) (n : Nat) :
    (r.rewired sel ring).turnedTimes n = (r.turnedTimes n).rewired sel ring := by
  induction n with
  | zero => rfl
  | succ n ih => rw [Rotor.turnedTimes, ih, Rotor.rewired_turned, ← Rotor.turnedTimes]

section Rewired

variable (e : Engine) (a b c : BitVec 3) (x y z : Cell)

/-- The engine with other wirings and other ring settings in the three slots. -/
def Engine.rewired : Engine :=
  { e with left := e.left.rewired a x, middle := e.middle.rewired b y, right := e.right.rewired c z }

theorem Engine.rewired_rotorsValid : (e.rewired a b c x y z).rotorsValid = e.rotorsValid := rfl

/-- Rewiring commutes with Step: the notch predicates do not see it, and turning keeps it. -/
theorem Engine.rewired_stepped : (e.rewired a b c x y z).stepped = e.stepped.rewired a b c x y z := by
  rw [Engine.stepped_eq, Engine.stepped_eq, Engine.rewired, Engine.rewired, Rotor.rewired_turnedTimes,
    Rotor.rewired_turnedTimes, Rotor.rewired_turned]
  rfl

end Rewired

/-- Settles O40: with the rotors loaded the two engines step to rewirings of one engine, and without them neither
steps. -/
theorem steppingIgnoresRingsAndWirings : Obligations.SteppingIgnoresRingsAndWirings := by
  intro s t a b c x y z h
  have hvalid := s.engine.rewired_rotorsValid a b c x y z
  cases hv : s.engine.rotorsValid with
  | true =>
    obtain rfl := Host.Outcome.next.inj ((exec_step hv).symm.trans h)
    refine ⟨_, exec_step (s := { s with engine := s.engine.rewired a b c x y z }) (hvalid.trans hv), ?_⟩
    rw [Engine.rewired_stepped]
    exact ⟨rfl, rfl, rfl, rfl⟩
  | false =>
    obtain rfl := Host.Outcome.next.inj ((exec_step_of_unloaded hv).symm.trans h)
    exact ⟨_, exec_step_of_unloaded (s := { s with engine := s.engine.rewired a b c x y z }) (hvalid.trans hv), rfl, rfl,
      rfl, rfl⟩

/-! ### ENC (R150, R153, R154) -/

theorem Engine.configured_iff (e : Engine) :
    e.configured = true ↔ e.rotorsValid = true ∧ e.vref = true ∧ e.vplg = true := by
  simp [Engine.configured, and_assoc]

theorem normalWord_symbolResult (y : Cell) : normalWord (symbolResult y) = BitVec.ofNat 32 (0x41 + y.toNat) := by
  apply BitVec.eq_of_toNat_eq
  rw [normalWord_toNat, symbolResult_toNat, BitVec.toNat_ofNat]
  omega

theorem exec_enc {s : State} {ch : Byte} {c : Letter} (hch : symbolOperand ch = some c)
    (hc : s.engine.configured = true) :
    exec (.enc ch) s =
      .next { s with
        engine := s.engine.stepped
        responses := s.responses ++ [BitVec.ofNat 32 (0x41 + (s.engine.stepped.sub c).toNat)] } := by
  rw [← normalWord_symbolResult]
  exact exec_of_ok _ s _ _ (by simp [result, encResult, hch, hc])

/-- The code of a character in the alphabet (R81). -/
theorem symbolOperand_of_range {ch : Byte} (hlo : 0x41 ≤ ch.toNat) (hhi : ch.toNat ≤ 0x5A) :
    symbolOperand ch = some (mod26 (ch.toNat - 0x41)) := by
  rw [symbolOperand_eq_some, mod26_val]
  omega

/-- Settles O38: STEP and ENC leave the same stepped engine, and the answer is Sub's cascade on it. -/
theorem encStepsThenSubstitutes : Obligations.EncStepsThenSubstitutes := by
  intro s ch hlo hhi hl hm hr hvref hvplg
  have hv : s.engine.rotorsValid = true := s.engine.rotorsValid_iff.2 ⟨hl, hm, hr⟩
  have hc : s.engine.configured = true := s.engine.configured_iff.2 ⟨hv, hvref, hvplg⟩
  exact ⟨_, exec_step hv, exec_enc (symbolOperand_of_range hlo hhi) hc⟩

/-! ### RDST (R156) -/

theorem normalWord_or (v v' : Payload) : normalWord (v ||| v') = normalWord v ||| normalWord v' :=
  BitVec.setWidth_or

/-- A field of the status word stands at the same place of the response word. -/
theorem normalWord_shownAt {n lo : Nat} (x : BitVec n) (h : lo + n ≤ 31) : normalWord (shownAt lo x) = placed lo x := by
  apply BitVec.eq_of_getLsbD_eq
  intro i hi
  by_cases hbit : i - lo < n
  · have hlow : i < 31 := by omega
    simp [normalWord, shownAt, placed, hi, hlow]
  · simp [normalWord, shownAt, placed, BitVec.getLsbD_of_ge x _ (Nat.le_of_not_lt hbit)]

/-- The status word as a response: its twelve fields, each in its place. -/
theorem normalWord_status (e : Engine) :
    normalWord e.status =
      placed 0 e.right.shownPos ||| placed 5 e.middle.shownPos ||| placed 10 e.left.shownPos
        ||| placed 15 (BitVec.ofBool e.right.shownAtn)
        ||| placed 16 (BitVec.ofBool e.middle.shownAtn)
        ||| placed 17 (BitVec.ofBool e.left.shownAtn)
        ||| placed 18 (BitVec.ofBool e.right.valid)
        ||| placed 19 (BitVec.ofBool e.middle.valid)
        ||| placed 20 (BitVec.ofBool e.left.valid)
        ||| placed 21 (BitVec.ofBool e.vref)
        ||| placed 22 (BitVec.ofBool e.vplg)
        ||| placed 23 e.shownRefsel := by
  rw [Engine.status]
  simp (disch := decide) only [normalWord_or, normalWord_shownAt]

/-- A bit of a word, read as a field of one bit. -/
theorem getLsbD_of_field {w : Word} {lo : Nat} {b : Bool} (h : field w lo 1 = BitVec.ofBool b) : w.getLsbD lo = b := by
  have hbit := congrArg (fun v => v.getLsbD 0) h
  simpa [field] using hbit

theorem exec_rdst (s : State) :
    exec .rdst s = .next { s with responses := s.responses ++ [normalWord s.engine.status] } :=
  exec_of_ok .rdst s _ _ rfl

/-- Settles O39: the response is twelve fields that overlap nowhere, so each reads as what was placed there. -/
theorem rdstShowsTheStatusWord : Obligations.RdstShowsTheStatusWord := by
  intro s
  refine ⟨_, exec_rdst s, ?_, ?_, ?_, getLsbD_of_field ?_, getLsbD_of_field ?_, getLsbD_of_field ?_,
    getLsbD_of_field ?_, getLsbD_of_field ?_, getLsbD_of_field ?_, getLsbD_of_field ?_, getLsbD_of_field ?_, ?_, ?_⟩
  all_goals
    change field _ _ _ = _
    rw [normalWord_status]
    simp (disch := decide) only [field_or, field_placed_same, field_placed_disjoint, BitVec.ofNat_eq_ofNat,
      BitVec.zero_or, BitVec.or_zero, Rotor.shownPos, Rotor.shownAtn, Engine.shownRefsel, Engine.atNotch, Engine.rotor_left,
      Engine.rotor_middle, Engine.rotor_right]

end Sys2Proof.Machine

/-! PROOFS about the pseudo-operations (43_enigma.md R159, R160): runs on the engine alone, CONFIGURE and ENCSTR. -/

namespace Sys2Proof.Machine

/-! ### Runs on the engine alone -/

theorem execList_append {cmds : List Instr} {s t : State} (h : execList cmds s = .next t) (cmds' : List Instr) :
    execList (cmds ++ cmds') s = execList cmds' t := by
  induction cmds generalizing s with
  | nil => rw [List.nil_append, Host.Outcome.next.inj h]
  | cons i is ih =>
    obtain ⟨s', hs'⟩ := exec_completes i s
    rw [execList_cons hs'] at h
    rw [List.cons_append, execList_cons hs', ih h]

/-- From the engine `e` the commands leave the engine `e'` and answer these words, whatever the ports hold. -/
def Engine.Runs (e : Engine) (cmds : List Instr) (e' : Engine) (answers : List Word) : Prop :=
  ∀ s : State, s.engine = e → execList cmds s = .next { s with engine := e', responses := s.responses ++ answers }

section Runs

variable {e e' e'' : Engine} {cmds cmds' : List Instr} {answers answers' : List Word}

theorem Engine.Runs.nil (e : Engine) : e.Runs [] e [] := by
  rintro s rfl
  rw [List.append_nil]
  rfl

theorem Engine.Runs.append (h : e.Runs cmds e' answers) (h' : e'.Runs cmds' e'' answers') :
    e.Runs (cmds ++ cmds') e'' (answers ++ answers') := by
  intro s hs
  rw [execList_append (h s hs), h' _ rfl, List.append_assoc]

theorem Engine.Runs.of_answers {i : Instr} {w : Word} (h : ∀ s : State, s.engine = e → Answers i s e' w) :
    e.Runs [i] e' [w] := by
  intro s hs
  rw [execList_cons (h s hs)]
  rfl

theorem Engine.Runs.of_ok {i : Instr} {v : Payload} (h : result i e = .ok (e', v)) : e.Runs [i] e' [normalWord v] :=
  .of_answers fun s hs => exec_of_ok i s e' v (hs ▸ h)

theorem Engine.Runs.of_error {i : Instr} {f : FaultKind} (h : result i e = .error f) : e.Runs [i] e [f.word] := by
  refine .of_answers ?_
  rintro s rfl
  exact exec_of_error i s f h

end Runs

/-! ### CONFIGURE: the commands of a record (R159) -/

/-- What a legal record says of one slot. -/
structure SlotSetting where
  /-- The catalog index. -/
  sel : BitVec 3
  /-- The initial position. -/
  pos : Letter
  /-- The ring setting. -/
  ring : Letter

/-- The LDROT that mounts a setting in a slot. -/
def SlotSetting.command (c : SlotSetting) (k : Slot) : Instr := .ldrot k.number c.sel (cellOf c.pos) (cellOf c.ring)

/-- The bank of a slot with the setting mounted. -/
def SlotSetting.rotor (c : SlotSetting) : Rotor := Rotor.mounted c.sel c.pos c.ring

/-- The PBPAIR of two letter codes. -/
def pairCommand (p : Letter × Letter) : Instr := .pbpair (cellOf p.1) (cellOf p.2)

/-- Numbers in the ranges of R159 are a setting, which `configureSlot` turns into its command. -/
theorem exists_slotSetting {sel pos ring : Nat} (hsel : sel ≤ 7) (hpos : pos ≤ 25) (hring : ring ≤ 25) :
    ∃ c : SlotSetting, (∀ k : Slot, configureSlot k.number sel pos ring = some (c.command k)) ∧
      c.rotor =
        { sel := BitVec.ofNat 3 sel, pos := BitVec.ofNat 5 pos, ring := BitVec.ofNat 5 ring,
          notchA := readNotch (BitVec.ofNat 3 sel) 0, notchB := readNotch (BitVec.ofNat 3 sel) 1, valid := true } :=
  ⟨⟨BitVec.ofNat 3 sel, ⟨pos, Nat.lt_succ_of_le hpos⟩, ⟨ring, Nat.lt_succ_of_le hring⟩⟩,
    fun _ => if_pos ⟨hsel, hpos, hring⟩, rfl⟩

theorem symbolOperand_charOf (x : Letter) : symbolOperand (charOf x) = some x := by
  rw [symbolOperand_eq_some, charOf, BitVec.toNat_ofNat]
  omega

theorem configurePairs_letters (pairs : List (Letter × Letter)) :
    configurePairs (pairs.map fun k => (charOf k.1, charOf k.2)) = some (pairs.map pairCommand) := by
  induction pairs with
  | nil => rfl
  | cons p ps ih => simp [configurePairs, configurePair, symbolOperand_charOf, ih, pairCommand]

theorem configure_eq_some {a b c p q r x y z : Nat} {ps : List (Byte × Byte)} {pairs : List Instr}
    {left middle right : Instr} (id : Byte) (hpairs : configurePairs ps = some pairs)
    (hleft : configureSlot 0 a p x = some left) (hmiddle : configureSlot 1 b q y = some middle)
    (hright : configureSlot 2 c r z = some right) :
    configure ⟨[a, b, c], [p, q, r], [x, y, z], id, ps⟩ =
      some (.pbclr :: pairs ++ [left, middle, right, .ldref id]) := by
  simp only [configure, hpairs, hleft, hmiddle, hright]
  rfl

/-! ### CONFIGURE: what its commands do (R159) -/

theorem runs_pbclr (e : Engine) : e.Runs [.pbclr] { e with plug := Memory.identity, vplg := true } [0] := by
  refine .of_answers ?_
  rintro s rfl
  exact exec_pbclr s

theorem runs_pair {e : Engine} (hv : e.vplg = true) (p : Letter × Letter) :
    e.Runs [pairCommand p] { e with plug := e.plug.pair p.1 p.2 } [0] := by
  refine .of_answers ?_
  rintro s rfl
  exact exec_pbpair hv p.1 p.2

theorem runs_pairs (pairs : List (Letter × Letter)) {e : Engine} (hv : e.vplg = true) :
    e.Runs (pairs.map pairCommand) { e with plug := e.plug.replay pairs } (List.replicate pairs.length 0) := by
  induction pairs generalizing e with
  | nil => exact .nil e
  | cons p ps ih => exact (runs_pair hv p).append (ih hv)

theorem runs_slot (e : Engine) (c : SlotSetting) (k : Slot) : e.Runs [c.command k] (e.setRotor k c.rotor) [0] := by
  refine .of_answers ?_
  rintro s rfl
  exact exec_ldrot s k c.sel c.pos c.ring

theorem runs_ldref (e : Engine) (id : Byte) : e.Runs [.ldref id] { e with refsel := refselOf id, vref := true } [0] :=
  .of_ok (v := 0) rfl

theorem runs_slots_ldref (e : Engine) (l m r : SlotSetting) (id : Byte) :
    e.Runs [l.command .left, m.command .middle, r.command .right, .ldref id]
      { e with left := l.rotor, middle := m.rotor, right := r.rotor, refsel := refselOf id, vref := true }
      [0, 0, 0, 0] :=
  (runs_slot e l .left).append <| (runs_slot _ m .middle).append <| (runs_slot _ r .right).append <| runs_ldref _ id

/-- The commands of a legal record write every register, so the engine they leave does not depend on the one before. -/
theorem runs_record (e : Engine) (l m r : SlotSetting) (id : Byte) (pairs : List (Letter × Letter)) :
    e.Runs (.pbclr :: pairs.map pairCommand ++ [l.command .left, m.command .middle, r.command .right, .ldref id])
      { left := l.rotor, middle := m.rotor, right := r.rotor, refsel := refselOf id, vref := true,
        plug := Memory.identity.replay pairs, vplg := true }
      (List.replicate (pairs.length + 5) 0) := by
  have hanswers : List.replicate (pairs.length + 5) (0 : Word) =
      [0] ++ List.replicate pairs.length 0 ++ [0, 0, 0, 0] :=
    List.replicate_add (pairs.length + 1) 4 0
  rw [hanswers]
  exact ((runs_pbclr e).append (runs_pairs pairs rfl)).append (runs_slots_ldref _ l m r id)

/-- Settles O45: every slot of the record is a setting, and the commands of three settings and the pairs leave the
engine of the record. -/
theorem configureBuildsTheRecordedMachine : Obligations.ConfigureBuildsTheRecordedMachine := by
  intro s a b c p q r x y z id pairs ha hb hc hp hq hr hx hy hz
  obtain ⟨l, hleft, hl⟩ := exists_slotSetting ha hp hx
  obtain ⟨m, hmiddle, hm⟩ := exists_slotSetting hb hq hy
  obtain ⟨r', hright, hr'⟩ := exists_slotSetting hc hr hz
  refine ⟨_, configure_eq_some id (configurePairs_letters pairs) (hleft .left) (hmiddle .middle) (hright .right), ?_⟩
  rw [runs_record s.engine l m r' id pairs s rfl, hl, hm, hr', refselOf_eq]
  rfl

/-! ### CONFIGURE: the refusals (R159) -/

/-- A refusal in two parts, where whether the second refuses does not depend on what the first gives. -/
theorem bind_eq_none_iff_or {α β : Type} {o : Option α} {f : α → Option β} {refuses : Prop}
    (hf : ∀ a, f a = none ↔ refuses) : (o >>= f) = none ↔ o = none ∨ refuses := by
  cases o with
  | none => simp
  | some a => simp [hf]

theorem bind_some_eq_none {α β : Type} (o : Option α) (g : α → β) : (o >>= fun a => some (g a)) = none ↔ o = none := by
  cases o with
  | none => simp
  | some a => simp

theorem configurePair_eq_none (p : Byte × Byte) :
    configurePair p = none ↔ p.1.toNat < 0x41 ∨ 0x5A < p.1.toNat ∨ p.2.toNat < 0x41 ∨ 0x5A < p.2.toNat := by
  rw [← or_assoc, ← symbolOperand_eq_none, ← symbolOperand_eq_none]
  exact bind_eq_none_iff_or fun _ => bind_some_eq_none _ _

theorem configurePairs_eq_none (ps : List (Byte × Byte)) :
    configurePairs ps = none ↔ ∃ p ∈ ps, configurePair p = none := by
  induction ps with
  | nil => simp [configurePairs]
  | cons p ps ih =>
    rw [List.exists_mem_cons_iff, ← ih]
    exact bind_eq_none_iff_or fun _ => bind_some_eq_none _ _

theorem configureSlot_eq_none (slot : BitVec 2) (sel pos ring : Nat) :
    configureSlot slot sel pos ring = none ↔ 7 < sel ∨ 25 < pos ∨ 25 < ring := by
  rw [configureSlot, ite_eq_right_iff]
  simp only [reduceCtorEq, imp_false]
  omega

theorem configure_eq_none_of_length {rec : ConfigRecord}
    (h : rec.rotors.length ≠ 3 ∨ rec.rotorInit.length ≠ 3 ∨ rec.rotorSetting.length ≠ 3) : configure rec = none := by
  unfold configure
  split
  · next hr hi hs => simp [hr, hi, hs] at h
  · rfl

/-- A record with three elements in each sequence is refused by one of its pairs or by one of its slots. -/
theorem configure_threes_eq_none_iff (a b c p q r x y z : Nat) (id : Byte) (ps : List (Byte × Byte)) :
    configure ⟨[a, b, c], [p, q, r], [x, y, z], id, ps⟩ = none ↔
      configurePairs ps = none ∨ configureSlot 0 a p x = none ∨ configureSlot 1 b q y = none ∨
        configureSlot 2 c r z = none :=
  bind_eq_none_iff_or fun _ => bind_eq_none_iff_or fun _ => bind_eq_none_iff_or fun _ => bind_some_eq_none _ _

/-- Settles O46: a record is refused for the length of a sequence, or for a pair or a slot of it; what is left is the
order of the bounds. -/
theorem configureRefusesIllegalRecords : Obligations.ConfigureRefusesIllegalRecords := by
  intro rec
  by_cases h : rec.rotors.length ≠ 3 ∨ rec.rotorInit.length ≠ 3 ∨ rec.rotorSetting.length ≠ 3
  · simp only [configure_eq_none_of_length h, iff_true]
    tauto
  · obtain ⟨rotors, rotorInit, rotorSetting, id, ps⟩ := rec
    simp only [ne_eq, not_or, not_not, List.length_eq_three] at h
    obtain ⟨⟨a, b, c, rfl⟩, ⟨p, q, r, rfl⟩, ⟨x, y, z, rfl⟩⟩ := h
    rw [configure_threes_eq_none_iff, configurePairs_eq_none]
    simp only [configureSlot_eq_none, configurePair_eq_none, List.exists_mem_cons_iff, List.not_mem_nil, false_and,
      exists_false, or_false, List.length_cons, List.length_nil]
    generalize (∃ k ∈ ps, _) = illegalPair
    tauto

/-! ### ENCSTR (R160) -/

theorem normalWord_ne_invalidSymbol (v : Payload) : normalWord v ≠ 0x80000004 := by
  intro h
  have hbit := normalWord_bit31 v
  rw [h] at hbit
  cases hbit

/-- What one character does: it is outside the alphabet exactly when it answers InvalidSymbol, and then the engine
stays as it is. -/
theorem runs_enc (e : Engine) (ch : Byte) :
    ∃ e' r, e.Runs [.enc ch] e' [r] ∧ (WellFormed.symbol ch = false ↔ r = 0x80000004) ∧
      (WellFormed.symbol ch = false → e' = e) := by
  have hchecks := encResult_checksOperands ch e
  cases hs : WellFormed.symbol ch with
  | false =>
    rw [hs] at hchecks
    exact ⟨e, _, .of_error hchecks.eq_error, iff_of_true rfl rfl, fun _ => rfl⟩
  | true =>
    rw [hs] at hchecks
    cases h : encResult ch e with
    | ok p =>
      exact ⟨p.1, _, .of_ok h, iff_of_false nofun (normalWord_ne_invalidSymbol p.2), nofun⟩
    | error f =>
      rw [h] at hchecks
      obtain rfl := hchecks.eq_notConfigured
      exact ⟨e, _, .of_error h, by decide, fun _ => rfl⟩

/-- A text and its part inside the alphabet leave the same engine, and the answers of the first that are not
InvalidSymbol are those of the second. -/
theorem runs_encstr (text : List Byte) (e : Engine) :
    ∃ e' answers, e.Runs (encstr text) e' answers ∧
      e.Runs (encstr (text.filter WellFormed.symbol)) e' (answers.filter fun r => decide (r ≠ 0x80000004)) ∧
      List.Forall₂ (fun ch r => WellFormed.symbol ch = false ↔ r = 0x80000004) text answers := by
  induction text generalizing e with
  | nil => exact ⟨e, [], .nil e, .nil e, .nil⟩
  | cons ch text ih =>
    obtain ⟨e', r, hch, hr, hkeep⟩ := runs_enc e ch
    obtain ⟨e'', answers, htext, hkept, hall⟩ := ih e'
    refine ⟨e'', r :: answers, hch.append htext, ?_, .cons hr hall⟩
    cases hs : WellFormed.symbol ch with
    | true =>
      have hne : r ≠ 0x80000004 := by simpa [hs] using hr
      rw [List.filter_cons_of_pos hs, List.filter_cons_of_pos (by simpa using hne)]
      exact hch.append hkept
    | false =>
      rw [List.filter_cons_of_neg (by simp [hs]), List.filter_cons_of_neg (by simpa using hr.1 hs)]
      rw [hkeep hs] at hkept
      exact hkept

/-- Settles O47: the two runs of every text, each character a step of both or of the first only. -/
theorem encstrSkipsTheFaultingCharacters : Obligations.EncstrSkipsTheFaultingCharacters := by
  refine ⟨rfl, fun _ => rfl, fun s text => ?_⟩
  obtain ⟨e, answers, htext, hkept, hall⟩ := runs_encstr text s.engine
  exact ⟨e, answers, hall.length_eq.symm, htext s rfl, hkept s rfl, hall⟩

end Sys2Proof.Machine

/-! PROOFS about the exceptions (60_exceptions.md): what fault entry leaves unchanged, and when each command faults. -/

namespace Sys2Proof.Machine

/-! ### Fault entry (R171, R179) -/

/-- A command answers with bit 31 set only through fault entry, which adds the response and nothing else. -/
theorem exec_of_faultBit {i : Instr} {s t : State} {r : Word} (h : exec i s = .next t)
    (hr : t.responses = s.responses ++ [r]) (hbit : r.getLsbD 31 = true) :
    t = { s with responses := s.responses ++ [r] } ∧ ∃ f : FaultKind, r = f.word := by
  obtain ⟨e, v, -, rfl⟩ | ⟨f, -, rfl⟩ := exec_next i s t h
  · obtain rfl : normalWord v = r := List.singleton_inj.1 (List.append_cancel_left hr)
    rw [normalWord_bit31] at hbit
    cases hbit
  · obtain rfl : f.word = r := List.singleton_inj.1 (List.append_cancel_left hr)
    exact ⟨rfl, f, rfl⟩

/-- So does a step on a command word, which also takes the word from the inputs. -/
theorem step_of_faultBit {s t : State} {w r : Word} {rest : List Input} (hs : s.inputs = .command w :: rest)
    (h : step s = .next t) (hr : t.responses = s.responses ++ [r]) (hbit : r.getLsbD 31 = true) :
    t = { s with inputs := rest, responses := s.responses ++ [r] } ∧ ∃ f : FaultKind, r = f.word := by
  cases hd : decode w with
  | ok i =>
    rw [step_of_decode_ok hs hd] at h
    exact exec_of_faultBit h hr hbit
  | error why =>
    obtain rfl := Host.Outcome.next.inj ((step_of_decode_error hs hd).symm.trans h)
    obtain rfl : 0x80000001 = r := List.singleton_inj.1 (List.append_cancel_left hr)
    exact ⟨rfl, .illegalCommand, rfl⟩

/-- Settles O10: bit 31 is set by fault entry only, and the words of the four faults are the four codes. -/
theorem faultEntryChangesNothing : Obligations.FaultEntryChangesNothing := by
  intro s t w r rest hs h hr hbit
  obtain ⟨ht, f, rfl⟩ := step_of_faultBit hs h hr hbit
  exact ⟨ht, (isResponse_faultWord f).resolve_left (by simp [f.word_bit31])⟩

/-! ### The valid flags a command needs (R174) -/

/-- The slot that the operand names is loaded; 3 names no slot, so it has no flag to check. -/
def Engine.slotReady (e : Engine) (slot : BitVec 2) : Bool := (slotOperand slot).all fun k => (e.rotor k).valid

/-- Every valid flag that the command needs is 1 (R174). -/
def Engine.ready (e : Engine) : Instr → Bool
  | .pbclr | .ldrot _ _ _ _ | .ldref _ | .rdst => true
  | .pbpair _ _ | .xplg _ => e.vplg
  | .step => e.rotorsValid
  | .enc _ => e.configured
  | .turn slot | .xfwd slot _ | .xbwd slot _ => e.slotReady slot
  | .xref _ => e.vref

theorem exists_letterOperand {x : BitVec 5} (h : WellFormed.code x = true) : ∃ c, letterOperand x = some c :=
  Option.isSome_iff_exists.1 ((isSome_letterOperand x).trans h)

theorem exists_slotOperand {slot : BitVec 2} (h : WellFormed.slot slot = true) : ∃ k, slotOperand slot = some k :=
  Option.isSome_iff_exists.1 ((isSome_slotOperand slot).trans h)

theorem exists_symbolOperand {ch : Byte} (h : WellFormed.symbol ch = true) : ∃ c, symbolOperand ch = some c :=
  Option.isSome_iff_exists.1 ((isSome_symbolOperand ch).trans h)

/-- A result that depends on one check of valid flags: it ends normally where they are 1 and is NotConfigured
otherwise. -/
def Result.Needs (ready : Bool) (r : Result) : Prop := ∃ p, r = if ready then .ok p else .error .notConfigured

theorem probeResult_needs_slotReady (through : Rotor → Nat → Letter) {slot : BitVec 2} {x : BitVec 5} (e : Engine)
    (h : (WellFormed.slot slot && WellFormed.code x) = true) :
    Result.Needs (e.slotReady slot) (probeResult through slot x e) := by
  obtain ⟨hslot, hx⟩ := Bool.and_eq_true_iff.1 h
  obtain ⟨k, hk⟩ := exists_slotOperand hslot
  obtain ⟨c, hc⟩ := exists_letterOperand hx
  rw [probeResult, Engine.slotReady, hk, hc]
  exact ⟨_, rfl⟩

/-- A well-formed command faults only for the flags it needs (R174). -/
theorem result_needs_ready {i : Instr} (h : i.wellFormed = true) (e : Engine) :
    Result.Needs (e.ready i) (result i e) := by
  cases i with
  | pbclr => exact ⟨_, rfl⟩
  | pbpair k v =>
    obtain ⟨hk, hv⟩ := Bool.and_eq_true_iff.1 h
    obtain ⟨a, ha⟩ := exists_letterOperand hk
    obtain ⟨b, hb⟩ := exists_letterOperand hv
    rw [result, pbpairResult, ha, hb]
    exact ⟨_, rfl⟩
  | ldrot slot sel pos ring =>
    obtain ⟨hsp, hring⟩ := Bool.and_eq_true_iff.1 h
    obtain ⟨hslot, hpos⟩ := Bool.and_eq_true_iff.1 hsp
    obtain ⟨k, hk⟩ := exists_slotOperand hslot
    obtain ⟨p, hp⟩ := exists_letterOperand hpos
    obtain ⟨g, hg⟩ := exists_letterOperand hring
    rw [result, ldrotResult, hk, hp, hg]
    exact ⟨_, rfl⟩
  | ldref ch => exact ⟨_, rfl⟩
  | step => exact ⟨_, rfl⟩
  | enc ch =>
    obtain ⟨c, hc⟩ := exists_symbolOperand h
    rw [result, encResult, hc]
    exact ⟨_, rfl⟩
  | rdst => exact ⟨_, rfl⟩
  | turn slot =>
    obtain ⟨k, hk⟩ := exists_slotOperand h
    rw [result, turnResult, Engine.ready, Engine.slotReady, hk]
    exact ⟨_, rfl⟩
  | xfwd slot x => exact probeResult_needs_slotReady Rotor.fwd e h
  | xbwd slot x => exact probeResult_needs_slotReady Rotor.bwd e h
  | xref x =>
    obtain ⟨c, hc⟩ := exists_letterOperand h
    rw [result, xrefResult, hc]
    exact ⟨_, rfl⟩
  | xplg x =>
    obtain ⟨c, hc⟩ := exists_letterOperand h
    rw [result, xplgResult, hc]
    exact ⟨_, rfl⟩

/-! ### How a command ends, in the order of its checks (R176) -/

section Ends

variable {i : Instr} {s : State} (hwf : i.wellFormed = true)
include hwf

theorem exec_of_notReady (h : s.engine.ready i = false) : AnswersOnly i s FaultKind.notConfigured.word := by
  obtain ⟨p, hp⟩ := result_needs_ready hwf s.engine
  rw [h] at hp
  exact exec_of_error i s _ hp

theorem endsNormally_of_ready (h : s.engine.ready i = true) : EndsNormally i s := by
  obtain ⟨p, hp⟩ := result_needs_ready hwf s.engine
  rw [h] at hp
  exact ⟨p.1, _, exec_of_ok i s p.1 p.2 hp, normalWord_bit31 p.2⟩

end Ends

/-- The three ends of a command, with its operand check and its flag check given as propositions. -/
theorem ends_by_priority {i : Instr} {s : State} {bad unready : Prop} [Decidable bad] [Decidable unready]
    (fault : FaultKind) (hfault : operandFault i = fault) (hbad : i.wellFormed = false ↔ bad)
    (hunready : s.engine.ready i = false ↔ unready) :
    if bad then AnswersOnly i s fault.word
    else if unready then AnswersOnly i s FaultKind.notConfigured.word
    else EndsNormally i s := by
  subst hfault
  split
  · next h => exact exec_of_illFormed (hbad.2 h) s
  · next h =>
    have hwf : i.wellFormed = true := by simpa [h] using hbad
    split
    · next hu => exact exec_of_notReady hwf (hunready.2 hu)
    · next hu => exact endsNormally_of_ready hwf (by simpa [hu] using hunready)

/-! ### The two checks, by operand and by flag (R173, R174, R175) -/

theorem code_eq_false_iff (x : BitVec 5) : WellFormed.code x = false ↔ 25 < x.toNat := by
  simp [WellFormed.code]

theorem slot_eq_false_iff (slot : BitVec 2) : WellFormed.slot slot = false ↔ slot = 3 := by
  simp [WellFormed.slot]

theorem symbol_eq_false_iff (ch : Byte) : WellFormed.symbol ch = false ↔ ch.toNat < 0x41 ∨ 0x5A < ch.toNat := by
  rw [← symbolOperand_eq_none, ← isSome_symbolOperand, Option.isSome_eq_false_iff, Option.isNone_iff_eq_none]

theorem probe_eq_false_iff (slot : BitVec 2) (x : BitVec 5) :
    (WellFormed.slot slot && WellFormed.code x) = false ↔ slot = 3 ∨ 25 < x.toNat := by
  rw [Bool.and_eq_false_iff, slot_eq_false_iff, code_eq_false_iff]

theorem pbpair_eq_false_iff (k v : BitVec 5) :
    (WellFormed.code k && WellFormed.code v) = false ↔ 25 < k.toNat ∨ 25 < v.toNat := by
  rw [Bool.and_eq_false_iff, code_eq_false_iff, code_eq_false_iff]

theorem ldrot_eq_false_iff (slot : BitVec 2) (pos ring : BitVec 5) :
    (WellFormed.slot slot && WellFormed.code pos && WellFormed.code ring) = false ↔
      slot = 3 ∨ 25 < pos.toNat ∨ 25 < ring.toNat := by
  rw [Bool.and_eq_false_iff, probe_eq_false_iff, code_eq_false_iff, or_assoc]

theorem Engine.rotorsValid_eq_false_iff (e : Engine) :
    e.rotorsValid = false ↔ e.left.valid = false ∨ e.middle.valid = false ∨ e.right.valid = false := by
  rw [Engine.rotorsValid, Bool.and_eq_false_iff, Bool.and_eq_false_iff, or_assoc]

theorem Engine.configured_eq_false_iff (e : Engine) :
    e.configured = false ↔ e.left.valid = false ∨ e.middle.valid = false ∨ e.right.valid = false ∨
      e.vref = false ∨ e.vplg = false := by
  rw [Engine.configured, Bool.and_eq_false_iff, Bool.and_eq_false_iff, Engine.rotorsValid_eq_false_iff]
  simp only [or_assoc]

theorem Engine.slotReady_eq_false_iff (e : Engine) (slot : BitVec 2) :
    e.slotReady slot = false ↔ e.SlotUnloaded slot := by
  cases h : slotOperand slot with
  | none =>
    obtain rfl := (slotOperand_eq_none slot).1 h
    exact iff_of_false nofun (by simp [Engine.SlotUnloaded])
  | some k =>
    obtain rfl := Slot.number_of_slotOperand h
    cases k <;> simp [Engine.slotReady, Engine.SlotUnloaded, Slot.number, Engine.rotor, slotOperand]

/-- Settles O11: each command ends by its two checks in order, and each check is the condition of R173, R174 or
R175. -/
theorem faultsByCommandAndPriority : Obligations.FaultsByCommandAndPriority := by
  intro s
  have hslot := s.engine.slotReady_eq_false_iff
  refine ⟨endsNormally_of_ready rfl rfl, fun k v => ?pbpair, fun slot sel pos ring => ?ldrot,
    fun ch => endsNormally_of_ready rfl rfl, ?step, fun ch => ?enc, endsNormally_of_ready rfl rfl, fun slot => ?turn,
    fun slot x => ?probe, fun x => ?xref, fun x => ?xplg⟩
  case pbpair => exact ends_by_priority .badOperand rfl (pbpair_eq_false_iff k v) Iff.rfl
  case ldrot =>
    have hends := ends_by_priority (i := .ldrot slot sel pos ring) (s := s) .badOperand rfl
      (ldrot_eq_false_iff slot pos ring) (iff_of_false nofun id)
    rw [if_false] at hends
    exact hends
  case step =>
    have hends := ends_by_priority (i := .step) .badOperand rfl (iff_of_false nofun id)
      s.engine.rotorsValid_eq_false_iff
    rw [if_false] at hends
    exact hends
  case enc => exact ends_by_priority .invalidSymbol rfl (symbol_eq_false_iff ch) s.engine.configured_eq_false_iff
  case turn => exact ends_by_priority .badOperand rfl (slot_eq_false_iff slot) (hslot slot)
  case probe =>
    have hbad := probe_eq_false_iff slot x
    rw [← apply_ite₂ And, ← apply_ite₂ And]
    exact ⟨ends_by_priority .badOperand rfl hbad (hslot slot), ends_by_priority .badOperand rfl hbad (hslot slot)⟩
  case xref => exact ends_by_priority .badOperand rfl (code_eq_false_iff x) Iff.rfl
  case xplg => exact ends_by_priority .badOperand rfl (code_eq_false_iff x) Iff.rfl

end Sys2Proof.Machine

/-! PROOFS about reset (70_reset_and_hazards.md): the valid flags it clears, and what RDST answers then. -/

namespace Sys2Proof.Machine

/-! ### The reset state (R190, R191, R193) -/

/-- The five valid flags are 0: all that R191 fixes of the engine after reset. -/
def Engine.FlagsClear (e : Engine) : Prop :=
  e.left.valid = false ∧ e.middle.valid = false ∧ e.right.valid = false ∧ e.vref = false ∧ e.vplg = false

theorem Engine.reset_flagsClear : Engine.reset.FlagsClear := ⟨rfl, rfl, rfl, rfl, rfl⟩

/-- A pulse of rst leaves the same engine as power-on, whatever stood in it before (R190). -/
theorem engine_of_step_reset {s s' : State} (hi : s'.inputs.head? = some .reset) (h : step s' = .next s) :
    s.engine = Engine.reset := by
  obtain ⟨rest, hrest⟩ := List.head?_eq_some_iff.1 hi
  rw [step_of_reset hrest] at h
  cases h
  rfl

/-! ### The status word with no flag set (R156) -/

theorem Rotor.shownPos_of_unloaded {r : Rotor} (h : r.valid = false) : r.shownPos = 0 := by
  simp [Rotor.shownPos, h]

theorem Rotor.shownAtn_of_unloaded {r : Rotor} (h : r.valid = false) : r.shownAtn = false := by
  simp [Rotor.shownAtn, h]

theorem Engine.shownRefsel_of_unmounted {e : Engine} (h : e.vref = false) : e.shownRefsel = 0 := by
  simp [Engine.shownRefsel, h]

/-- Every field is a flag or is masked by one, so the registers that reset leaves unspecified do not show (R191). -/
theorem Engine.FlagsClear.status_eq_zero {e : Engine} (h : e.FlagsClear) : e.status = 0 := by
  obtain ⟨hl, hm, hr, href, hplg⟩ := h
  rw [Engine.status, Rotor.shownPos_of_unloaded hl, Rotor.shownPos_of_unloaded hm, Rotor.shownPos_of_unloaded hr,
    Rotor.shownAtn_of_unloaded hl, Rotor.shownAtn_of_unloaded hm, Rotor.shownAtn_of_unloaded hr,
    Engine.shownRefsel_of_unmounted href, hl, hm, hr, href, hplg]
  decide

theorem exec_rdst_of_flagsClear {s : State} (h : s.engine.FlagsClear) :
    exec .rdst s = .next { s with responses := s.responses ++ [0] } := by
  rw [exec_rdst, h.status_eq_zero]
  rfl

/-- Settles O15: power-on and a pulse of rst leave one engine, whose flags are clear, and RDST shows nothing that no
flag guards. -/
theorem resetClearsTheValidFlags : Obligations.ResetClearsTheValidFlags := by
  intro s hs
  have hreset : s.engine = Engine.reset := by
    obtain rfl | ⟨s', hi, hstep⟩ := hs
    · rfl
    · exact engine_of_step_reset hi hstep
  have hclear : s.engine.FlagsClear := hreset ▸ Engine.reset_flagsClear
  have hrdst := exec_rdst_of_flagsClear hclear
  obtain ⟨hl, hm, hr, href, hplg⟩ := hclear
  exact ⟨hl, hm, hr, href, hplg, hrdst⟩

end Sys2Proof.Machine

/-! PROOFS about the range invariant (10_state.md R23, R25, R26, R29): it holds at reset and every step keeps it. -/

namespace Sys2Proof.Machine

/-! ### The ranges of one slot (R23, R25) -/

theorem Rotor.mounted_inv (sel : BitVec 3) (p g : Letter) : (Rotor.mounted sel p g).Inv :=
  fun _ => ⟨cellOf_le p, cellOf_le g, rfl, rfl⟩

theorem Rotor.Inv.turned {r : Rotor} (h : r.Inv) : r.turned.Inv := by
  intro hv
  obtain ⟨-, hring, hA, hB⟩ := h hv
  exact ⟨cellOf_le _, hring, hA, hB⟩

theorem Rotor.Inv.turnedTimes {r : Rotor} (h : r.Inv) (n : Nat) : (r.turnedTimes n).Inv := by
  induction n with
  | zero => exact h
  | succ n ih => exact ih.turned

/-! ### The invariant under the updates of the engine -/

/-- No register is loaded after reset, so R191 leaves nothing to bound. -/
theorem Engine.reset_inv : Engine.reset.Inv := ⟨nofun, nofun, nofun, nofun, nofun⟩

theorem Engine.Inv.setRotor {e : Engine} {r : Rotor} (h : e.Inv) (hr : r.Inv) (k : Slot) : (e.setRotor k r).Inv := by
  obtain ⟨hleft, hmiddle, hright, hrest⟩ := h
  cases k with
  | left => exact ⟨hr, hmiddle, hright, hrest⟩
  | middle => exact ⟨hleft, hr, hright, hrest⟩
  | right => exact ⟨hleft, hmiddle, hr, hrest⟩

theorem Engine.Inv.turnover {e : Engine} (h : e.Inv) (k : Slot) : (e.turnover k).Inv :=
  h.setRotor (h.rotor k).turned k

theorem Engine.Inv.stepped {e : Engine} (h : e.Inv) : e.stepped.Inv := by
  obtain ⟨hleft, hmiddle, hright, hrest⟩ := h
  rw [Engine.stepped_eq]
  exact ⟨hleft.turnedTimes _, hmiddle.turnedTimes _, hright.turned, hrest⟩

theorem Engine.Inv.withReflector {e : Engine} (h : e.Inv) (id : Byte) :
    ({ e with refsel := refselOf id, vref := true } : Engine).Inv := by
  obtain ⟨hleft, hmiddle, hright, -, hplug⟩ := h
  exact ⟨hleft, hmiddle, hright, fun _ => refselOf_ne_three id, hplug⟩

theorem Engine.Inv.withPlug {e : Engine} (h : e.Inv) {m : Memory} (hm : m.wf = true) (flag : Bool) :
    ({ e with plug := m, vplg := flag } : Engine).Inv := by
  obtain ⟨hleft, hmiddle, hright, hrefsel, -⟩ := h
  exact ⟨hleft, hmiddle, hright, hrefsel, fun _ => hm⟩

/-! ### The invariant along commands and steps -/

theorem result_keeps_inv {i : Instr} {e e' : Engine} {w : Payload} (hinv : e.Inv) (h : result i e = .ok (e', w)) :
    e'.Inv := by
  cases i with
  | pbclr =>
    obtain ⟨rfl, -⟩ := pbclrResult_ok h
    exact hinv.withPlug Memory.wf_identity true
  | pbpair k v =>
    obtain ⟨a, b, -, -, hv, rfl, -⟩ := pbpairResult_ok h
    exact hinv.withPlug (Memory.wf_pair _ a b (hinv.plug_wf hv)) e.vplg
  | ldrot slot sel pos ring =>
    obtain ⟨k, p, g, -, -, -, rfl, -⟩ := ldrotResult_ok h
    exact hinv.setRotor (Rotor.mounted_inv sel p g) k
  | ldref ch =>
    obtain ⟨rfl, -⟩ := ldrefResult_ok h
    exact hinv.withReflector ch
  | step =>
    obtain ⟨-, rfl, -⟩ := stepResult_ok h
    exact hinv.stepped
  | enc ch =>
    obtain ⟨c, -, -, rfl, -⟩ := encResult_ok h
    exact hinv.stepped
  | rdst =>
    obtain ⟨rfl, -⟩ := rdstResult_ok h
    exact hinv
  | turn slot =>
    obtain ⟨k, -, -, rfl, -⟩ := turnResult_ok h
    exact hinv.turnover k
  | xfwd slot x =>
    obtain ⟨k, c, -, -, -, rfl, -⟩ := probeResult_ok h
    exact hinv
  | xbwd slot x =>
    obtain ⟨k, c, -, -, -, rfl, -⟩ := probeResult_ok h
    exact hinv
  | xref x =>
    obtain ⟨c, -, -, rfl, -⟩ := xrefResult_ok h
    exact hinv
  | xplg x =>
    obtain ⟨c, -, -, rfl, -⟩ := xplgResult_ok h
    exact hinv

theorem exec_keeps_inv {i : Instr} {s t : State} (hinv : s.engine.Inv) (h : exec i s = .next t) : t.engine.Inv := by
  obtain ⟨e, w, hok, rfl⟩ | ⟨f, -, rfl⟩ := exec_next i s t h
  · exact result_keeps_inv hinv hok
  · exact hinv

/-- Settles O17: idling and a rejected word leave the engine as it is, rst leaves the reset engine, and every command
keeps the invariant. -/
theorem stepKeepsTheRangeInvariant : Obligations.StepKeepsTheRangeInvariant := by
  intro s t hinv h
  obtain ⟨-, rfl⟩ | ⟨rest, -, rfl⟩ | ⟨w, rest, why, -, -, rfl⟩ | ⟨w, rest, i, -, -, hexec⟩ := step_cases s t h
  · exact hinv
  · exact Engine.reset_inv
  · exact hinv
  · exact exec_keeps_inv (s := { s with inputs := rest }) hinv hexec

/-- Settles O16, by the invariant of the reset engine. -/
theorem resetMeetsTheRangeInvariant : Obligations.ResetMeetsTheRangeInvariant :=
  Engine.reset_inv

end Sys2Proof.Machine

/-! PROOFS about the frame of each command (10_state.md section 5): the write matrix, row by row. -/

namespace Sys2Proof.Machine

/-! ### What turning a rotor leaves alone (R114, R151) -/

theorem Rotor.turnedTimes_frame (r : Rotor) (n : Nat) : r.turnedTimes n = { r with pos := (r.turnedTimes n).pos } := by
  induction n with
  | zero => rfl
  | succ n ih =>
    rw [Rotor.turnedTimes, ih]
    rfl

theorem Engine.stepped_frame (e : Engine) :
    e.stepped = { e with
      left := { e.left with pos := e.stepped.left.pos }
      middle := { e.middle with pos := e.stepped.middle.pos }
      right := { e.right with pos := e.stepped.right.pos } } := by
  rw [Engine.stepped_eq, ← Rotor.turnedTimes_frame, ← Rotor.turnedTimes_frame]
  rfl

/-! ### The rows of the matrix (R34) -/

/-- From `e` to `e'` at most the state in the command's row of the write matrix is written. -/
def Engine.WrittenBy (i : Instr) (e e' : Engine) : Prop :=
  match i with
  | .pbclr => e' = { e with plug := e'.plug, vplg := true }
  | .pbpair k v =>
    e' = { e with plug := e'.plug } ∧
    ∀ x : Letter, x.val ≠ k.toNat → x.val ≠ v.toNat → e'.plug.read x = e.plug.read x
  | .ldrot slot _ _ _ =>
    e' = e ∨
    (slot = 0 ∧ e' = { e with left := { e'.left with valid := true } }) ∨
    (slot = 1 ∧ e' = { e with middle := { e'.middle with valid := true } }) ∨
    (slot = 2 ∧ e' = { e with right := { e'.right with valid := true } })
  | .ldref _ => e' = { e with refsel := e'.refsel, vref := true }
  | .step | .enc _ =>
    e' = { e with
      left := { e.left with pos := e'.left.pos }
      middle := { e.middle with pos := e'.middle.pos }
      right := { e.right with pos := e'.right.pos } }
  | .turn slot =>
    (slot = 0 ∧ e' = { e with left := { e.left with pos := e'.left.pos } }) ∨
    (slot = 1 ∧ e' = { e with middle := { e.middle with pos := e'.middle.pos } }) ∨
    (slot = 2 ∧ e' = { e with right := { e.right with pos := e'.right.pos } }) ∨
    (slot = 3 ∧ e' = e)
  | .rdst | .xfwd _ _ | .xbwd _ _ | .xref _ | .xplg _ => e' = e

theorem Engine.pair_writtenBy_pbpair (e : Engine) (a b : Letter) :
    Engine.WrittenBy (.pbpair (cellOf a) (cellOf b)) e { e with plug := e.plug.pair a b } := by
  refine ⟨rfl, fun x ha hb => Memory.read_pair_of_ne ?_ ?_⟩
  · simpa [Fin.ext_iff] using ha
  · simpa [Fin.ext_iff] using hb

theorem Engine.setRotor_mounted_writtenBy_ldrot (e : Engine) (k : Slot) (sel : BitVec 3) (p g : Letter)
    (pos ring : BitVec 5) :
    Engine.WrittenBy (.ldrot k.number sel pos ring) e (e.setRotor k (Rotor.mounted sel p g)) := by
  cases k with
  | left => exact .inr (.inl ⟨rfl, rfl⟩)
  | middle => exact .inr (.inr (.inl ⟨rfl, rfl⟩))
  | right => exact .inr (.inr (.inr ⟨rfl, rfl⟩))

theorem Engine.turnover_writtenBy_turn (e : Engine) (k : Slot) :
    Engine.WrittenBy (.turn k.number) e (e.turnover k) := by
  cases k with
  | left => exact .inl ⟨rfl, rfl⟩
  | middle => exact .inr (.inl ⟨rfl, rfl⟩)
  | right => exact .inr (.inr (.inl ⟨rfl, rfl⟩))

/-- A slot field is the number of a slot, or 3 (R83). -/
theorem slot_cases (slot : BitVec 2) : slot = 3 ∨ ∃ k : Slot, slot = k.number := by
  cases h : slotOperand slot with
  | none => exact .inl ((slotOperand_eq_none slot).1 h)
  | some k => exact .inr ⟨k, Slot.number_of_slotOperand h⟩

theorem Engine.refl_writtenBy_turn (e : Engine) (slot : BitVec 2) : Engine.WrittenBy (.turn slot) e e := by
  obtain rfl | ⟨k, rfl⟩ := slot_cases slot
  · exact .inr (.inr (.inr ⟨rfl, rfl⟩))
  · cases k with
    | left => exact .inl ⟨rfl, rfl⟩
    | middle => exact .inr (.inl ⟨rfl, rfl⟩)
    | right => exact .inr (.inr (.inl ⟨rfl, rfl⟩))

/-! ### Every command stays in its row -/

theorem result_ok_writtenBy {i : Instr} {e e' : Engine} {w : Payload} (h : result i e = .ok (e', w)) :
    Engine.WrittenBy i e e' := by
  cases i with
  | pbclr =>
    obtain ⟨rfl, -⟩ := pbclrResult_ok h
    exact rfl
  | pbpair k v =>
    obtain ⟨a, b, rfl, rfl, -, rfl, -⟩ := pbpairResult_ok h
    exact e.pair_writtenBy_pbpair a b
  | ldrot slot sel pos ring =>
    obtain ⟨k, p, g, hk, -, -, rfl, -⟩ := ldrotResult_ok h
    rw [Slot.number_of_slotOperand hk]
    exact e.setRotor_mounted_writtenBy_ldrot k sel p g pos ring
  | ldref ch =>
    obtain ⟨rfl, -⟩ := ldrefResult_ok h
    exact rfl
  | step =>
    obtain ⟨-, rfl, -⟩ := stepResult_ok h
    exact e.stepped_frame
  | enc ch =>
    obtain ⟨c, -, -, rfl, -⟩ := encResult_ok h
    exact e.stepped_frame
  | rdst =>
    obtain ⟨rfl, -⟩ := rdstResult_ok h
    exact rfl
  | turn slot =>
    obtain ⟨k, hk, -, rfl, -⟩ := turnResult_ok h
    rw [Slot.number_of_slotOperand hk]
    exact e.turnover_writtenBy_turn k
  | xfwd slot x =>
    obtain ⟨k, c, -, -, -, rfl, -⟩ := probeResult_ok h
    exact rfl
  | xbwd slot x =>
    obtain ⟨k, c, -, -, -, rfl, -⟩ := probeResult_ok h
    exact rfl
  | xref x =>
    obtain ⟨c, -, -, rfl, -⟩ := xrefResult_ok h
    exact rfl
  | xplg x =>
    obtain ⟨c, -, -, rfl, -⟩ := xplgResult_ok h
    exact rfl

/-- Writing nothing is in the row of every command that can fault; PBCLR and LDREF, which always set their flag, never
fault (R131, R141). -/
theorem result_error_writtenBy {i : Instr} {e : Engine} {f : FaultKind} (h : result i e = .error f) :
    Engine.WrittenBy i e e := by
  cases i with
  | pbclr => cases h
  | ldref ch => cases h
  | pbpair k v => exact ⟨rfl, fun _ _ _ => rfl⟩
  | ldrot slot sel pos ring => exact .inl rfl
  | turn slot => exact e.refl_writtenBy_turn slot
  | _ => exact rfl

theorem exec_writtenBy {i : Instr} {s t : State} (h : exec i s = .next t) :
    Engine.WrittenBy i s.engine t.engine := by
  obtain ⟨e, w, hok, rfl⟩ | ⟨f, herror, rfl⟩ := exec_next i s t h
  · exact result_ok_writtenBy hok
  · exact result_error_writtenBy herror

theorem exec_inputs {i : Instr} {s t : State} (h : exec i s = .next t) : t.inputs = s.inputs := by
  obtain ⟨e, w, -, rfl⟩ | ⟨f, -, rfl⟩ := exec_next i s t h
  · rfl
  · rfl

/-- Settles O13: the row of each command, with fault entry for the answers whose bit 31 is set. -/
theorem writeMatrix : Obligations.WriteMatrix := by
  intro i s t h
  refine ⟨exec_inputs h, fun r hr hbit => ?_, ?_⟩
  · obtain ⟨rfl, -⟩ := exec_of_faultBit h hr hbit
    rfl
  · have hrow := exec_writtenBy h
    cases i <;> exact hrow

end Sys2Proof.Machine

/-! PROOFS about the left rotor's notch registers (10_state.md section 4): no command but RDST shows them. -/

namespace Sys2Proof.Machine

/-! ### Other values in the left notch registers -/

/-- The bank with other values in its notch registers. -/
def Rotor.renotched (r : Rotor) (a b : Cell) : Rotor := { r with notchA := a, notchB := b }

section Renotched

variable (e : Engine) (a b : Cell)

/-- The engine with other values in the left slot's notch registers. -/
def Engine.renotched : Engine := { e with left := e.left.renotched a b }

theorem Rotor.renotched_turnedTimes (r : Rotor) (n : Nat) :
    (r.renotched a b).turnedTimes n = (r.turnedTimes n).renotched a b := by
  induction n with
  | zero => rfl
  | succ n ih =>
    rw [Rotor.turnedTimes, ih]
    rfl

theorem Engine.renotched_rotor_valid (k : Slot) : ((e.renotched a b).rotor k).valid = (e.rotor k).valid := by
  cases k <;> rfl

theorem Engine.renotched_turnover (k : Slot) : (e.renotched a b).turnover k = (e.turnover k).renotched a b := by
  cases k <;> rfl

/-- The left rotor has no neighbour to carry to, so Step never asks for its notch (R151). -/
theorem Engine.renotched_stepped : (e.renotched a b).stepped = e.stepped.renotched a b := by
  rw [Engine.stepped_eq, Engine.stepped_eq, Engine.renotched, Rotor.renotched_turnedTimes]
  rfl

/-- Sub reads wirings, positions and ring settings only (R153). -/
theorem Engine.renotched_sub (c : Letter) : (e.renotched a b).sub c = e.sub c := rfl

end Renotched

/-! ### What a command answers -/

/-- Two results that differ at most in the left notch registers: the same fault, or the same answer. LDROT of the left
slot overwrites the difference; every other command keeps it. -/
inductive Result.UpToLeftNotch (a b : Cell) : Result → Result → Prop
  | overwritten (e : Engine) (v : Payload) : UpToLeftNotch a b (.ok (e, v)) (.ok (e, v))
  | kept (e : Engine) (v : Payload) : UpToLeftNotch a b (.ok (e, v)) (.ok (e.renotched a b, v))
  | error (f : FaultKind) : UpToLeftNotch a b (.error f) (.error f)

open Result (UpToLeftNotch)

/-- A command that asks for a valid flag, which the notch registers do not touch. -/
theorem Result.UpToLeftNotch.guarded {a b : Cell} {r r' : Result} (flag : Bool) (f : FaultKind)
    (h : UpToLeftNotch a b r r') :
    UpToLeftNotch a b (if flag then r else .error f) (if flag then r' else .error f) := by
  cases flag with
  | false => exact .error f
  | true => exact h

section Results

variable (a b : Cell) (e : Engine)

theorem pbpairResult_upToLeftNotch (k v : BitVec 5) :
    UpToLeftNotch a b (pbpairResult k v e) (pbpairResult k v (e.renotched a b)) := by
  unfold pbpairResult
  split
  · exact .guarded e.vplg _ (.kept _ 0)
  · exact .error _

theorem ldrotResult_upToLeftNotch (slot : BitVec 2) (sel : BitVec 3) (pos ring : BitVec 5) :
    UpToLeftNotch a b (ldrotResult slot sel pos ring e) (ldrotResult slot sel pos ring (e.renotched a b)) := by
  unfold ldrotResult
  split
  · next k p g _ _ _ =>
    cases k with
    | left => exact .overwritten _ 0
    | middle => exact .kept _ 0
    | right => exact .kept _ 0
  · exact .error _

theorem encResult_upToLeftNotch (ch : Byte) : UpToLeftNotch a b (encResult ch e) (encResult ch (e.renotched a b)) := by
  unfold encResult
  split
  · exact .error _
  · next c _ =>
    rw [Engine.renotched_stepped, Engine.renotched_sub]
    exact .guarded e.configured _ (.kept _ _)

theorem stepResult_upToLeftNotch : UpToLeftNotch a b (stepResult e) (stepResult (e.renotched a b)) := by
  rw [stepResult, stepResult, Engine.renotched_stepped]
  exact .guarded e.rotorsValid _ (.kept _ 0)

theorem turnResult_upToLeftNotch (slot : BitVec 2) :
    UpToLeftNotch a b (turnResult slot e) (turnResult slot (e.renotched a b)) := by
  unfold turnResult
  split
  · exact .error _
  · next k _ =>
    rw [Engine.renotched_rotor_valid, Engine.renotched_turnover]
    exact .guarded _ _ (.kept _ 0)

/-- A probe whose pass does not read the notch registers. -/
theorem probeResult_upToLeftNotch {through : Rotor → Nat → Letter}
    (hthrough : ∀ r : Rotor, through (r.renotched a b) = through r) (slot : BitVec 2) (x : BitVec 5) :
    UpToLeftNotch a b (probeResult through slot x e) (probeResult through slot x (e.renotched a b)) := by
  have hrotor (k : Slot) : through ((e.renotched a b).rotor k) = through (e.rotor k) := by
    cases k with
    | left => exact hthrough e.left
    | middle => rfl
    | right => rfl
  unfold probeResult
  split
  · next k c _ _ =>
    rw [Engine.renotched_rotor_valid, hrotor]
    exact .guarded _ _ (.kept _ _)
  · exact .error _

theorem xrefResult_upToLeftNotch (x : BitVec 5) :
    UpToLeftNotch a b (xrefResult x e) (xrefResult x (e.renotched a b)) := by
  unfold xrefResult
  split
  · exact .error _
  · next c _ => exact .guarded e.vref _ (.kept e (cellResult (e.refl c)))

theorem xplgResult_upToLeftNotch (x : BitVec 5) :
    UpToLeftNotch a b (xplgResult x e) (xplgResult x (e.renotched a b)) := by
  unfold xplgResult
  split
  · exact .error _
  · next c _ => exact .guarded e.vplg _ (.kept e (cellResult (e.plugged c)))

/-- No command but RDST tells the two engines apart. -/
theorem result_upToLeftNotch {i : Instr} (hi : i ≠ .rdst) :
    UpToLeftNotch a b (result i e) (result i (e.renotched a b)) := by
  cases i with
  | rdst => exact absurd rfl hi
  | pbclr => exact .kept _ 0
  | pbpair k v => exact pbpairResult_upToLeftNotch a b e k v
  | ldrot slot sel pos ring => exact ldrotResult_upToLeftNotch a b e slot sel pos ring
  | ldref ch => exact .kept _ 0
  | step => exact stepResult_upToLeftNotch a b e
  | enc ch => exact encResult_upToLeftNotch a b e ch
  | turn slot => exact turnResult_upToLeftNotch a b e slot
  | xfwd slot x => exact probeResult_upToLeftNotch a b e (fun _ => rfl) slot x
  | xbwd slot x => exact probeResult_upToLeftNotch a b e (fun _ => rfl) slot x
  | xref x => exact xrefResult_upToLeftNotch a b e x
  | xplg x => exact xplgResult_upToLeftNotch a b e x

end Results

theorem answer_upToLeftNotch {a b : Cell} {s t : State} {r r' : Result} (hr : UpToLeftNotch a b r r')
    (h : s.answer r = .next t) :
    ∃ e', ({ s with engine := s.engine.renotched a b } : State).answer r' = .next { t with engine := e' } ∧
      (e' = t.engine ∨ e' = t.engine.renotched a b) := by
  cases hr with
  | overwritten e v =>
    cases h
    exact ⟨e, rfl, .inl rfl⟩
  | kept e v =>
    cases h
    exact ⟨e.renotched a b, rfl, .inr rfl⟩
  | error f =>
    cases h
    exact ⟨s.engine.renotched a b, rfl, .inr rfl⟩

/-- Settles O19: the results on the two engines differ at most in the left notch registers, hence the answers are one
word. -/
theorem leftNotchReachesOnlyTheStatusWord : Obligations.LeftNotchReachesOnlyTheStatusWord := by
  intro i s a b e w hi h
  rw [Answers, exec_eq_answer] at h
  obtain ⟨e', hexec, he'⟩ := answer_upToLeftNotch (result_upToLeftNotch a b s.engine hi) h
  exact ⟨e', (exec_eq_answer i _).trans hexec, he'⟩

end Sys2Proof.Machine

/-! PROOFS about position against ring setting (40_rotor.md section 1): the passes see their difference only, the notch
detector sees the position. -/

namespace Sys2Proof.Machine

/-- The difference of position and ring setting, modulo 26. -/
def Rotor.difference (r : Rotor) : Nat := (26 + r.pos.toNat - r.ring.toNat) % 26

theorem Rotor.pass_eq_of_difference {r : Rotor} (hpos : r.pos.toNat ≤ 25) (hring : r.ring.toNat ≤ 25)
    (row : Letter → Cell) (x : Nat) :
    r.pass row x = mod26 ((row (mod26 (x + r.difference))).toNat + 26 - r.difference) := by
  have hin : r.offsetIn x = mod26 (x + r.difference) := by
    apply Fin.ext
    simp only [Rotor.offsetIn, Rotor.difference, mod26_val]
    omega
  have hout (t : Nat) : r.offsetOut t = mod26 (t + 26 - r.difference) := by
    apply Fin.ext
    simp only [Rotor.offsetOut, Rotor.difference, mod26_val]
    omega
  rw [Rotor.pass, hin, hout]

/-- Both registers moved up by one modulo 26 keep their ranges and their difference. -/
theorem Rotor.pass_eq_of_both_advanced {r r' : Rotor} (hpos : r.pos.toNat ≤ 25) (hring : r.ring.toNat ≤ 25)
    (hpos' : r'.pos.toNat = (r.pos.toNat + 1) % 26) (hring' : r'.ring.toNat = (r.ring.toNat + 1) % 26)
    (row : Letter → Cell) (x : Nat) : r'.pass row x = r.pass row x := by
  have hdiff : r'.difference = r.difference := by
    rw [Rotor.difference, Rotor.difference, hpos', hring']
    omega
  rw [Rotor.pass_eq_of_difference (by omega) (by omega), Rotor.pass_eq_of_difference hpos hring, hdiff]

/-- Catalog rotor 0 on its notch, and the same difference one position further on. -/
theorem exists_same_difference_other_atNotch :
    ∃ r r' : Rotor, r.Inv ∧ r'.Inv ∧ r.valid = true ∧ r'.valid = true ∧ r'.sel = r.sel ∧
      (∀ x : Letter, r'.fwd x.val = r.fwd x.val) ∧ r'.atNotch ≠ r.atNotch := by
  refine ⟨Rotor.mounted 0 16 0, Rotor.mounted 0 17 1, Rotor.mounted_inv 0 16 0, Rotor.mounted_inv 0 17 1, rfl, rfl, rfl,
    fun x => ?_, by decide⟩
  exact Rotor.pass_eq_of_both_advanced (r := Rotor.mounted 0 16 0) (cellOf_le 16) (cellOf_le 0) rfl rfl _ x.val

/-- Settles O33: both passes are one formula in the difference, and two settings of one difference can lie on and off a
notch. -/
theorem onlyTheDifferenceMatters : Obligations.OnlyTheDifferenceMatters := by
  refine ⟨fun r hpos hring x => ⟨?_, ?_⟩, fun r r' hpos hring hsel hpos' hring' x => ⟨?_, ?_⟩,
    exists_same_difference_other_atNotch⟩
  · exact Rotor.pass_eq_of_difference hpos hring (readWfwd r.sel) x.val
  · exact Rotor.pass_eq_of_difference hpos hring (readWbwd r.sel) x.val
  · rw [Rotor.fwd_eq_pass, Rotor.fwd_eq_pass, hsel]
    exact Rotor.pass_eq_of_both_advanced hpos hring hpos' hring' _ _
  · rw [Rotor.bwd_eq_pass, Rotor.bwd_eq_pass, hsel]
    exact Rotor.pass_eq_of_both_advanced hpos hring hpos' hring' _ _

end Sys2Proof.Machine

/-! PROOFS about the ports and XREF (30_encoding.md R97; 70_reset_and_hazards.md R190, R196; 41_reflector.md R132). -/

namespace Sys2Proof.Machine

/-! ### rst, idling and the presented word -/

theorem step_of_idle {s : State} (hs : s.inputs = []) : step s = .next s := by
  rw [step, hs]
  rfl

/-- Settles O6, by the rules of a step on rst and on nothing. -/
theorem stepTakesRstAndIdles : Obligations.StepTakesRstAndIdles :=
  ⟨fun _ _ hs => step_of_reset hs, fun _ hs => step_of_idle hs⟩

theorem decode_of_decodeTableWord {nbits w : Nat} {i : Instr} (h : decodeTableWord nbits w = some i) :
    decode (tableWord nbits w) = .ok i := by
  unfold decodeTableWord at h
  cases hd : decode (tableWord nbits w) with
  | ok j =>
    rw [hd] at h
    cases h
    rfl
  | error why =>
    rw [hd] at h
    cases h

/-- Settles O7: the presented word is the oldest input, and taking it leaves the state before. -/
theorem presentedWordRunsNext : Obligations.PresentedWordRunsNext := by
  intro s nbits w i h
  exact step_of_decode_ok (State.present_inputs s _) (decode_of_decodeTableWord h)

/-! ### XREF (R132) -/

theorem exec_xref {s : State} (hv : s.engine.vref = true) (c : Letter) :
    exec (.xref (cellOf c)) s = .next { s with responses := s.responses ++ [(s.engine.refl c).setWidth 32] } := by
  rw [← normalWord_cellResult]
  exact exec_of_ok _ s s.engine _ (by simp [result, xrefResult, hv])

/-- Settles O35: an operand in 0..25 is the cell of a letter code, and Refl of that letter code is the answer. -/
theorem xrefAnswersTheReflection : Obligations.XrefAnswersTheReflection := by
  intro s x hx hv
  obtain ⟨c, rfl, hc⟩ := exists_cellOf x (Nat.le_of_lt_succ hx)
  have hindex : (⟨(cellOf c).toNat, hx⟩ : Letter) = c := Fin.ext hc.symm
  rw [hindex]
  exact exec_xref hv c

end Sys2Proof.Machine

/-! PROOFS about the double trigger (43_enigma.md R151, R152, R162): which commands lead into it, and what that says of
Step as a map. -/

namespace Sys2Proof.Machine

/-! ### The notches of a catalog row (R54) -/

/-- The cell is a notch of the catalog row. -/
def isNotch (sel : BitVec 3) (c : Cell) : Bool := c == readNotch sel 0 || c == readNotch sel 1

/-- No catalog row has two notches side by side, read off the eight rows. -/
theorem not_isNotch_successor {sel : BitVec 3} {x : Letter} (h : isNotch sel (cellOf x) = true) :
    ¬ isNotch sel (cellOf (mod26 (x.val + 1))) = true := by
  revert sel x
  decide

theorem Rotor.Inv.atNotch_eq {r : Rotor} (h : r.Inv) (hv : r.valid = true) : r.atNotch = isNotch r.sel r.pos := by
  obtain ⟨-, -, hA, hB⟩ := h hv
  rw [Rotor.atNotch, hA, hB, isNotch]

/-- A turn takes a catalog rotor off its notch. -/
theorem Rotor.Inv.turned_not_atNotch {r : Rotor} (h : r.Inv) (hv : r.valid = true) (hat : r.atNotch = true) :
    ¬ r.turned.atNotch = true := by
  obtain ⟨hpos, -⟩ := h hv
  obtain ⟨x, hx, hval⟩ := exists_cellOf r.pos hpos
  rw [h.atNotch_eq hv, hx] at hat
  rw [h.turned.atNotch_eq hv, Rotor.turned_sel, Rotor.turned_pos, ← hval]
  exact not_isNotch_successor hat

/-! ### The double trigger (R152) -/

/-- Both the middle and the right rotor are at a notch. -/
abbrev Engine.DoubleTrigger (e : Engine) : Prop := e.atNotch .middle = true ∧ e.atNotch .right = true

/-- If the right rotor is at a notch after Step it was not before, so the middle rotor moved only off its own notch. -/
theorem Engine.stepped_not_doubleTrigger {e : Engine} (hinv : e.Inv) (hv : e.rotorsValid = true) :
    ¬ e.stepped.DoubleTrigger := by
  obtain ⟨-, hvm, hvr⟩ := e.rotorsValid_iff.1 hv
  obtain ⟨-, hminv, hrinv, -⟩ := hinv
  rw [Engine.stepped_eq]
  rintro ⟨hmiddle, hright⟩
  simp only [Engine.atNotch, Engine.rotor_middle, Engine.rotor_right] at hmiddle hright
  have hcarry : e.right.atNotch = false := Bool.eq_false_iff.2 fun hat => hrinv.turned_not_atNotch hvr hat hright
  rw [hcarry] at hmiddle
  cases hat : e.middle.atNotch with
  | false =>
    rw [hat] at hmiddle
    exact absurd hmiddle (Bool.eq_false_iff.1 hat)
  | true =>
    rw [hat] at hmiddle
    exact hminv.turned_not_atNotch hvm hat hmiddle

/-- Every command but STEP, ENC, LDROT and TURN leaves the banks as they are, and the first two step or fault. -/
theorem exec_enters_doubleTrigger {i : Instr} {s t : State} (hinv : s.engine.Inv) (hv : s.engine.rotorsValid = true)
    (h : exec i s = .next t) (hafter : t.engine.DoubleTrigger) (hbefore : ¬ s.engine.DoubleTrigger) :
    (∃ slot sel pos ring, i = .ldrot slot sel pos ring) ∨ (∃ slot, i = .turn slot) := by
  cases i with
  | ldrot slot sel pos ring => exact .inl ⟨slot, sel, pos, ring, rfl⟩
  | turn slot => exact .inr ⟨slot, rfl⟩
  | step =>
    obtain ⟨e, w, hok, rfl⟩ | ⟨f, -, rfl⟩ := exec_next _ s t h
    · obtain ⟨-, rfl, -⟩ := stepResult_ok hok
      exact absurd hafter (Engine.stepped_not_doubleTrigger hinv hv)
    · exact absurd hafter hbefore
  | enc ch =>
    obtain ⟨e, w, hok, rfl⟩ | ⟨f, -, rfl⟩ := exec_next _ s t h
    · obtain ⟨c, -, -, rfl, -⟩ := encResult_ok hok
      exact absurd hafter (Engine.stepped_not_doubleTrigger hinv hv)
    · exact absurd hafter hbefore
  | pbpair k v =>
    obtain ⟨hrow, -⟩ := exec_writtenBy h
    rw [hrow] at hafter
    exact absurd hafter hbefore
  | _ =>
    have hrow : t.engine = _ := exec_writtenBy h
    rw [hrow] at hafter
    exact absurd hafter hbefore

theorem step_not_doubleTrigger {s t : State} (hinv : s.engine.Inv) (hv : s.engine.rotorsValid = true)
    (h : exec .step s = .next t) : ¬ t.engine.DoubleTrigger := by
  obtain rfl := Host.Outcome.next.inj ((exec_step hv).symm.trans h)
  exact Engine.stepped_not_doubleTrigger hinv hv

/-- Settles O41: Step takes a rotor off its notch and carries only from a right rotor at one, and of the other commands
only LDROT and TURN write a bank. -/
theorem doubleTriggerIsEnteredByLdrotOrTurn : Obligations.DoubleTriggerIsEnteredByLdrotOrTurn := by
  constructor
  · intro s t hinv hv h
    exact step_not_doubleTrigger hinv hv h
  · intro i s t hinv hv h hafter hbefore
    exact exec_enters_doubleTrigger hinv hv h hafter hbefore

/-! ### Step is neither injective nor onto (R162) -/

/-- Three rotors of catalog row 0, whose notch is 16, at the positions, and nothing else loaded. -/
def Engine.rowZeroAt (l m r : Letter) : Engine :=
  { Engine.reset with left := Rotor.mounted 0 l 0, middle := Rotor.mounted 0 m 0, right := Rotor.mounted 0 r 0 }

theorem Engine.rowZeroAt_inv (l m r : Letter) : (Engine.rowZeroAt l m r).Inv :=
  ⟨Rotor.mounted_inv 0 l 0, Rotor.mounted_inv 0 m 0, Rotor.mounted_inv 0 r 0, nofun, nofun⟩

/-- A middle rotor that moves off its notch comes to where another stands still. -/
theorem Engine.rowZeroAt_same_successor : (Engine.rowZeroAt 0 16 0).stepped = (Engine.rowZeroAt 1 17 0).stepped := by
  decide

theorem exec_step_rowZeroAt (l m r : Letter) :
    exec .step ⟨Engine.rowZeroAt l m r, [], []⟩ = .next ⟨(Engine.rowZeroAt l m r).stepped, [], [0]⟩ :=
  exec_step rfl

/-- Settles O42: the two engines at (0, 16, 0) and (1, 17, 0) share their successor, and the double trigger at
(0, 16, 16) is the successor of none. -/
theorem stepIsNeitherInjectiveNorOnto : Obligations.StepIsNeitherInjectiveNorOnto := by
  refine ⟨fun s hv => ⟨_, exec_step hv, rfl⟩, ?notInjective, ?notOnto⟩
  case notInjective =>
    refine ⟨⟨Engine.rowZeroAt 0 16 0, [], []⟩, ⟨Engine.rowZeroAt 1 17 0, [], []⟩, _, Engine.rowZeroAt_inv 0 16 0,
      Engine.rowZeroAt_inv 1 17 0, rfl, rfl, by decide, exec_step_rowZeroAt 0 16 0, ?_⟩
    rw [Engine.rowZeroAt_same_successor]
    exact exec_step_rowZeroAt 1 17 0
  case notOnto =>
    refine ⟨Engine.rowZeroAt 0 16 16, Engine.rowZeroAt_inv 0 16 16, rfl, ?_⟩
    intro s t hinv hv h heq
    have hdouble : (Engine.rowZeroAt 0 16 16).DoubleTrigger := by decide
    exact step_not_doubleTrigger hinv hv h (heq ▸ hdouble)

end Sys2Proof.Machine

/-! PROOFS about encipherment (43_enigma.md section 3): Sub as plugboard, rotors and reflector, its reciprocity, and the
identity reflector. -/

namespace Sys2Proof.Machine

/-! ### The rotors on both sides of the reflector (R153) -/

/-- Stages S1 to S3: through the three rotors to the reflector. -/
def Engine.inward (e : Engine) (x : Letter) : Letter := e.left.fwd (e.middle.fwd (e.right.fwd x.val).val).val

/-- Stages S5 to S7: back from the reflector. -/
def Engine.outward (e : Engine) (x : Letter) : Letter := e.right.bwd (e.middle.bwd (e.left.bwd x.val).val).val

/-- Position and ring setting of the bank are in 0..25 (R23). -/
def Rotor.InRange (r : Rotor) : Prop := r.pos.toNat ≤ 25 ∧ r.ring.toNat ≤ 25

/-- All three banks are in range. -/
def Engine.InRange (e : Engine) : Prop := e.left.InRange ∧ e.middle.InRange ∧ e.right.InRange

theorem Rotor.Inv.inRange {r : Rotor} (h : r.Inv) (hv : r.valid = true) : r.InRange := by
  obtain ⟨hpos, hring, -⟩ := h hv
  exact ⟨hpos, hring⟩

theorem Engine.Inv.inRange {e : Engine} (h : e.Inv) (hv : e.rotorsValid = true) : e.InRange := by
  obtain ⟨hl, hm, hr⟩ := e.rotorsValid_iff.1 hv
  obtain ⟨hleft, hmiddle, hright, -⟩ := h
  exact ⟨hleft.inRange hl, hmiddle.inRange hm, hright.inRange hr⟩

section Ways

variable {e : Engine} (h : e.InRange)
include h

theorem Engine.outward_inward (x : Letter) : e.outward (e.inward x) = x := by
  obtain ⟨⟨hlp, hlr⟩, ⟨hmp, hmr⟩, ⟨hrp, hrr⟩⟩ := h
  rw [Engine.inward, Engine.outward, Rotor.bwd_fwd hlp hlr, Rotor.bwd_fwd hmp hmr, Rotor.bwd_fwd hrp hrr]

theorem Engine.inward_outward (x : Letter) : e.inward (e.outward x) = x := by
  obtain ⟨⟨hlp, hlr⟩, ⟨hmp, hmr⟩, ⟨hrp, hrr⟩⟩ := h
  rw [Engine.inward, Engine.outward, Rotor.fwd_bwd hrp hrr, Rotor.fwd_bwd hmp hmr, Rotor.fwd_bwd hlp hlr]

end Ways

theorem Engine.rotorsValid_of_configured {e : Engine} (h : e.configured = true) : e.rotorsValid = true := by
  obtain ⟨hv, -⟩ := e.configured_iff.1 h
  exact hv

/-- Sub along its letters: `b` is what the plugboard makes of `c`, and `z` what the reflector answers. -/
theorem Engine.sub_eq {e : Engine} {c b z : Letter} (hb : e.plug.read c = cellOf b)
    (hz : e.refl (e.inward b) = cellOf z) : e.sub c = e.plug.read (e.outward z) := by
  have hinward : e.left.fwd (e.middle.fwd (e.right.fwd b.val).val).val = e.inward b := rfl
  simp only [Engine.sub, Engine.plugged, hb, cellOf_toNat, hinward, hz]
  rfl

/-! ### Sub is an involution (R157) -/

/-- The engine enciphers, and its plugboard undoes itself. -/
structure Engine.Reciprocal (e : Engine) : Prop where
  inv : e.Inv
  configured : e.configured = true
  involutive : e.plug.Involutive

theorem Engine.Reciprocal.inRange {e : Engine} (h : e.Reciprocal) : e.InRange :=
  h.inv.inRange (Engine.rotorsValid_of_configured h.configured)

/-- Plugboard, rotors and reflector each undo themselves on the way back, so the letters of the path come in reverse. -/
theorem Engine.Reciprocal.exists_sub {e : Engine} (h : e.Reciprocal) (c : Letter) :
    ∃ y : Letter, e.sub c = cellOf y ∧ e.sub y = cellOf c ∧ (e.refsel = 1 ∨ e.refsel = 2 → c ≠ y) := by
  obtain ⟨b, hb, hback⟩ := h.involutive c
  obtain ⟨z, hz, -⟩ := exists_cellOf (e.refl (e.inward b)) (e.refl_le _)
  obtain ⟨y, hy, hyback⟩ := h.involutive (e.outward z)
  refine ⟨y, (Engine.sub_eq hb hz).trans hy, ?reciprocal, ?noFixedLetter⟩
  case reciprocal =>
    have hreturn : e.refl (e.inward (e.outward z)) = cellOf (e.inward b) := by
      rw [Engine.inward_outward h.inRange, Engine.refl_symm hz]
    rw [Engine.sub_eq hyback hreturn, Engine.outward_inward h.inRange, hback]
  case noFixedLetter =>
    rintro hmounted rfl
    have hplug : b = e.outward z := (cellOf_inj _ _).1 (hb.symm.trans hyback)
    have hfixed : e.inward b = z := by rw [hplug, Engine.inward_outward h.inRange]
    rw [← hfixed] at hz
    exact Engine.refl_ne_cellOf hmounted _ hz

/-! ### Whole texts (R157, R160) -/

theorem Engine.stepped_configured (e : Engine) : e.stepped.configured = e.configured := by
  obtain ⟨hrotors, hvref, hvplg⟩ := e.stepped_sameFlags
  have hl : e.stepped.left.valid = e.left.valid := hrotors .left
  have hm : e.stepped.middle.valid = e.middle.valid := hrotors .middle
  have hr : e.stepped.right.valid = e.right.valid := hrotors .right
  simp only [Engine.configured, Engine.rotorsValid, hl, hm, hr, hvref, hvplg]

@[simp] theorem Engine.stepped_refsel (e : Engine) : e.stepped.refsel = e.refsel := by
  rw [Engine.stepped_eq]

theorem Engine.Reciprocal.stepped {e : Engine} (h : e.Reciprocal) : e.stepped.Reciprocal where
  inv := h.inv.stepped
  configured := e.stepped_configured.trans h.configured
  involutive := e.stepped_plug.symm ▸ h.involutive

/-- ENC of a letter, where Sub of the stepped engine is known. -/
theorem runs_enc_letter {e : Engine} (hc : e.configured = true) {x y : Letter} (hsub : e.stepped.sub x = cellOf y) :
    e.Runs [.enc (charOf x)] e.stepped [charWord y] := by
  refine .of_answers ?_
  rintro s rfl
  have hexec := exec_enc (symbolOperand_charOf x) hc
  rwa [hsub, cellOf_toNat] at hexec

/-- A text and its cipher drive one engine through the same positions, and each is the other's answer. -/
theorem runs_encLetters (text : List Letter) {e : Engine} (h : e.Reciprocal) :
    ∃ (cipher : List Letter) (e' : Engine),
      e.Runs (encLetters text) e' (cipher.map charWord) ∧ e.Runs (encLetters cipher) e' (text.map charWord) ∧
      (e.refsel = 1 ∨ e.refsel = 2 → List.Forall₂ (fun a b => a ≠ b) text cipher) := by
  induction text generalizing e with
  | nil => exact ⟨[], e, .nil e, .nil e, fun _ => .nil⟩
  | cons x xs ih =>
    obtain ⟨y, hxy, hyx, hne⟩ := h.stepped.exists_sub x
    obtain ⟨ys, e', htext, hcipher, hall⟩ := ih h.stepped
    rw [Engine.stepped_refsel] at hne hall
    exact ⟨y :: ys, e', (runs_enc_letter h.configured hxy).append htext,
      (runs_enc_letter h.configured hyx).append hcipher, fun hmounted => .cons (hne hmounted) (hall hmounted)⟩

/-- Settles O43: Sub is an involution at every position the text meets, and both texts meet the same positions. -/
theorem enciphermentIsReciprocal : Obligations.EnciphermentIsReciprocal := by
  intro s hinv hc hplug
  have h : s.engine.Reciprocal := ⟨hinv, hc, hplug⟩
  constructor
  · intro c
    obtain ⟨y, hcy, hyc, -⟩ := h.exists_sub c
    exact ⟨y, hcy, hyc⟩
  · intro text
    obtain ⟨cipher, e, htext, hcipher, hall⟩ := runs_encLetters text h
    exact ⟨cipher, e, htext s rfl, hcipher s rfl, hall⟩

/-! ### The identity reflector (R158) -/

/-- With the identity reflector the way out undoes the way in, and the two plugboard passes are left. -/
theorem Engine.sub_of_identity {e : Engine} (hrange : e.InRange) (hrefsel : e.refsel = 0) {c b : Letter}
    (hb : e.plug.read c = cellOf b) : e.sub c = e.plug.read b := by
  have hidentity : e.refl = cellOf := Engine.refl_of_identity (by simp [hrefsel])
  have hreturn : e.refl (e.inward b) = cellOf (e.inward b) := by rw [hidentity]
  rw [Engine.sub_eq hb hreturn, Engine.outward_inward hrange]

/-- Settles O44: Step keeps PLUG and REFSEL, and Sub of the stepped engine is the plugboard twice. -/
theorem identityReflectorReturnsPlugOfPlug : Obligations.IdentityReflectorReturnsPlugOfPlug := by
  intro s c hinv hc hrefsel
  obtain ⟨hv, -, hvplg⟩ := s.engine.configured_iff.1 hc
  obtain ⟨b, hb, -⟩ := exists_cellOf (s.engine.plug.read c) ((Memory.wf_iff _).1 (hinv.plug_wf hvplg) c)
  have hrange : s.engine.stepped.InRange :=
    hinv.stepped.inRange (Engine.rotorsValid_of_configured (s.engine.stepped_configured.trans hc))
  have hsub : s.engine.stepped.sub c = s.engine.plug.read b := by
    rw [Engine.sub_of_identity hrange (s.engine.stepped_refsel.trans hrefsel) (s.engine.stepped_plug.symm ▸ hb),
      Engine.stepped_plug]
  refine ⟨_, b, exec_step hv, hb, ?_, fun hinvolutive => hinvolutive.symm hb⟩
  rw [exec_enc (symbolOperand_charOf c) hc, hsub]

end Sys2Proof.Machine
